-- ==== Sys2Proof/Word.lean ====
section
/-!
DEFINITION. The words of the NTSC FIR kernel blitter: register words, bytes, pixels, and the triple of
integers that is a signal sample, a kernel tap or a window slot (spec 00_scope R8, R13, R15; 10_state R20, R21, R23, R47).
-/

namespace Sys2Proof

/-- A 32-bit register word, command word or byte address (R15, R28, R60). -/
abbrev Word := BitVec 32

/-- One byte of pixel memory (R60). -/
abbrev Byte := BitVec 8

/-- An InputPixel or OutputPixel: IN_BITS = OUT_BITS = 16 (R8, R20, R25). -/
abbrev Pixel := BitVec 16

/-- Three signed integers, luma and two chroma components: a SignalSample (R21), a kernel tap
`(ky, ki, kq)` (R23) or a window slot `(ay, ai, aq)` (R47). Unbounded integers, as R11 permits. -/
structure Yiq where
  y : Int
  i : Int
  q : Int
deriving DecidableEq, Repr, Inhabited

/-- The triple `(0, 0, 0)`. -/
def Yiq.zero : Yiq := ⟨0, 0, 0⟩

/-- Component-wise addition (R172). -/
def Yiq.add (a b : Yiq) : Yiq := ⟨a.y + b.y, a.i + b.i, a.q + b.q⟩

/-- The component-wise sum of a list of triples; an empty sum is `(0, 0, 0)` (R165). -/
def Yiq.sum : List Yiq → Yiq
  | [] => Yiq.zero
  | a :: as => a.add (Yiq.sum as)

/-- Three channel values, red, green and blue, before they are clamped and packed (R97, R177). -/
structure Rgb where
  r : Int
  g : Int
  b : Int
deriving DecidableEq, Repr

end Sys2Proof
end

