-- ==== Sys2Proof/Syntax.lean ====
section
/-!
DEFINITION. The three commands of the NFB (spec 30_encoding R93), one constructor per row of the opcode table.
-/

namespace Sys2Proof

/-- A command. The operands of SETUP and BLIT are registers of the engine that receives it (R49); those of
LOOKUP are the three fields of the command word, unsigned integers taken as they stand (R91). -/
inductive Instr where
  /-- SETUP: build and publish a kernel table (R122). -/
  | setup
  /-- BLIT: filter one row (R160). -/
  | blit
  /-- LOOKUP of the pixel class `cls`, the phase `ph` and the tap index `tap` (R152). -/
  | lookup (cls ph tap : Nat)
deriving DecidableEq, Repr

end Sys2Proof
end

