-- ==== Sys2Proof/WellFormed.lean ====
section
/-!
DEFINITION. Which commands have a command word: the fields of format C hold their operands (spec 30_encoding R91, R92).
A LOOKUP whose operands are outside the configuration's ranges is well formed; it raises IllegalCommand when performed (R95).
-/

namespace Sys2Proof

/-- CLS is a 16-bit field (R91). -/
def clsFits (cls : Nat) : Bool := decide (cls < 2 ^ 16)

/-- PH is an 8-bit field (R91). -/
def phFits (ph : Nat) : Bool := decide (ph < 2 ^ 8)

/-- TAP is a 4-bit field (R91). -/
def tapFits (tap : Nat) : Bool := decide (tap < 2 ^ 4)

/-- The command has an encoding: every operand fits its field. -/
def Instr.wellFormed : Instr → Bool
  | .setup => true
  | .blit => true
  | .lookup cls ph tap => clsFits cls && phFits ph && tapFits tap

end Sys2Proof
end

