-- ==== Sys2Proof/Decode.lean ====
section
/-!
DEFINITION. The command decoder and encoder (spec 30_encoding R90 to R95, R102). A command is one 32-bit word written
to CMD, never fetched from memory (R90), so no byte order enters.
-/

namespace Sys2Proof

/-- Why a word is no command. Both answers raise IllegalCommand (R95). -/
inductive DecodeError where
  /-- OP is 0x0 or 0x4 to 0xF. -/
  | unusedOpcode (op : Nat)
  /-- OP is that of SETUP or BLIT and one of bits 27:0 is set. -/
  | reservedBitsSet (op : Nat)
deriving DecidableEq, Repr

/-- The field of `len` bits of `w` whose lowest bit is bit `lo`, as an unsigned integer (R12, R91). -/
def bitField (w : Word) (lo len : Nat) : Nat := w.toNat / 2 ^ lo % 2 ^ len

/-- One row of the opcode map: `w` selects it when `w AND mask = pattern` (R93). -/
structure OpRow where
  mask : Word
  pattern : Word
deriving DecidableEq, Repr

def setupRow : OpRow := ⟨0xFFFFFFFF#32, 0x10000000#32⟩
def blitRow : OpRow := ⟨0xFFFFFFFF#32, 0x20000000#32⟩
def lookupRow : OpRow := ⟨0xF0000000#32, 0x30000000#32⟩

/-- The word selects the row. -/
def OpRow.selects (r : OpRow) (w : Word) : Bool := decide (w &&& r.mask = r.pattern)

/-- The acceptance step's case distinction on the word (R94), with the names of the words R95 reserves. -/
def decode (w : Word) : Except DecodeError Instr :=
  if setupRow.selects w then .ok .setup
  else if blitRow.selects w then .ok .blit
  else if lookupRow.selects w then
    .ok (.lookup (bitField w 0 16) (bitField w 16 8) (bitField w 24 4))
  else
    let op := bitField w 28 4
    if op = 1 ∨ op = 2 then .error (.reservedBitsSet op) else .error (.unusedOpcode op)

/-- The command word of a well-formed command (R93, R100). -/
def encode : Instr → Word
  | .setup => 0x10000000#32
  | .blit => 0x20000000#32
  | .lookup cls ph tap => BitVec.ofNat 32 (0x30000000 + tap * 2 ^ 24 + ph * 2 ^ 16 + cls)

/-- The opcode-map row of a command. -/
def Instr.row : Instr → OpRow
  | .setup => setupRow
  | .blit => blitRow
  | .lookup _ _ _ => lookupRow

/-- The command the decoder reads from a word given as a number of `nbits` bits. A command word has 32 bits (R90). -/
def decodeTableWord (nbits w : Nat) : Option Instr :=
  if nbits ≤ 32 then
    match decode (BitVec.ofNat 32 (w % 2 ^ nbits)) with
    | .ok i => some i
    | .error _ => none
  else none

end Sys2Proof
end

