-- ==== Sys2Proof/Config.lean ====
section
/-!
DEFINITION. The build configuration of the NFB: every parameter of spec 00_scope R10, fixed when the hardware is built and
never changed at run time (R7, R52), and the values the spec leaves free. What makes a configuration admissible is
`Config.Admissible` in Machine/Constraints.lean; the reference configuration is `Config.ref` in Machine/Reference.lean.
-/

namespace Sys2Proof

/-- The width of an InputPixel (R8). -/
def inBits : Nat := 16

/-- The width of an OutputPixel (R8). -/
def outBits : Nat := 16

/-- SetupParams: the seven parameter words `P_FMT` to `P_BLEED` (R36, R37, R99). -/
structure Params where
  fmt   : Word
  hue   : Word
  sat   : Word
  con   : Word
  bri   : Word
  sharp : Word
  bleed : Word
deriving DecidableEq, Repr

/-- The parameters of R10, under the spec's names. `GEN` is given by its two stages `DECODE` and `BUILD_KERNEL`
(R121, R126, R127) and `FINAL` by its conversion to channel values `CHANNELS` (R177), so that the structure those rules
demand holds by construction. -/
structure Config where
  /-- phase-cycle length -/
  P : Nat
  /-- phase advance per input pixel -/
  STEP : Nat
  /-- taps per kernel -/
  T : Nat
  /-- taps that land left of the input pixel's own column -/
  LEFT : Nat
  /-- number of pixel classes -/
  NCLASS : Nat
  /-- pixel classifier -/
  CLASSIFY : Pixel → Nat
  /-- representative pixel of a class (R127) -/
  REP : Nat → Pixel
  /-- the `adjust_input` hook -/
  ADJ : Pixel → Pixel
  /-- width of one tap component -/
  KW : Nat
  /-- width of one accumulator component -/
  AW : Nat
  /-- supported SetupParams (R124) -/
  VALID : Params → Bool
  /-- `decode(pixel, params)` (R121) -/
  DECODE : Pixel → Params → Yiq
  /-- `build_kernel(sample, phase, params)`, tap by tap (R126) -/
  BUILD_KERNEL : Yiq → Nat → Params → Nat → Yiq
  /-- FINAL's conversion of a slot to unclamped red, green and blue values of the output layout (R177) -/
  CHANNELS : Yiq → Rgb
  /-- the neutral SetupParams -/
  NEUTRAL : Params
  /-- tolerance of energy conservation (R128) -/
  ETOL : Nat
  /-- number of engines -/
  NUM_ENGINES : Nat
  /-- byte address of the register block -/
  BASE : Word
  /-- which byte addresses of pixel memory the platform backs (R68) -/
  ADMITS : Word → Bool

/-- RIGHT is not free (R10). -/
def Config.RIGHT (C : Config) : Nat := C.T - 1 - C.LEFT

/-- The bits 31:12 of BASE, which the platform chooses (R10, R61): a free value. -/
opaque Config.platformPage : BitVec 20

/-- What tap `t` of class `c` and phase `p` holds in a bank that no SETUP has filled since the reset numbered `n`
(R53, U8): a free value. -/
opaque Config.unspecifiedTap (n c p t : Nat) : Yiq

end Sys2Proof
end

