-- ==== Sys2Proof/Machine/Fields.lean ====
section
/-!
DEFINITION. The integer operators of spec 00_scope R13 and the RGB565 layout of 30_encoding R96, R97.
-/

namespace Sys2Proof

/-- `clamp(v, lo, hi)` (R13). -/
def clamp (v lo hi : Int) : Int := if v < lo then lo else if hi < v then hi else v

/-- `a >> k`, the floor of `a / 2^k` (R13). -/
def asr (a : Int) (k : Nat) : Int := a / 2 ^ k

/-- `trunc_32(v)` of a signed integer as a register word (R13, R39). -/
def truncWord (v : Int) : Word := BitVec.ofInt 32 v

/-- The signed integer of `n` bits that is congruent to `v`. -/
def wrapSigned (n : Nat) (v : Int) : Int := v.bmod (2 ^ n)

/-- `v` is a signed two's-complement integer of `n` bits (R11). -/
def fitsSigned (n : Nat) (v : Int) : Prop := -(2 ^ (n - 1)) ≤ v ∧ v < 2 ^ (n - 1)

/-- Every component is a signed integer of `n` bits. -/
def Yiq.fits (n : Nat) (a : Yiq) : Prop := fitsSigned n a.y ∧ fitsSigned n a.i ∧ fitsSigned n a.q

/-- Red, bits 15:11 of an InputPixel (R96). -/
def Pixel.red (px : Pixel) : Nat := px.toNat / 2 ^ 11 % 2 ^ 5

/-- Green, bits 10:5 of an InputPixel (R96). -/
def Pixel.green (px : Pixel) : Nat := px.toNat / 2 ^ 5 % 2 ^ 6

/-- Blue, bits 4:0 of an InputPixel (R96). -/
def Pixel.blue (px : Pixel) : Nat := px.toNat % 2 ^ 5

/-- Clamp each channel value to the range of its channel, then pack: red 15:11, green 10:5, blue 4:0 (R97, R177). -/
def Rgb.clampPack (c : Rgb) : Pixel :=
  BitVec.ofNat 16 ((clamp c.r 0 31).toNat * 2 ^ 11 + (clamp c.g 0 63).toNat * 2 ^ 5 + (clamp c.b 0 31).toNat)

end Sys2Proof
end

