-- ==== Sys2Proof/Machine/Kernel.lean ====
section
/-!
DEFINITION. The functions of the configuration that the commands use: GEN, FINAL and the sums the constraints of the
kernel generator speak of (spec 40_setup R127 to R129; 42_blit R177).
-/

namespace Sys2Proof

/-- `GEN(params)[c][p][t]` (R127). -/
def Config.gen (C : Config) (q : Params) (c p t : Nat) : Yiq :=
  C.BUILD_KERNEL (C.DECODE (C.REP c) q) p q t

/-- `FINAL`: convert to channel values, clamp each, pack (R177). -/
def Config.final (C : Config) (a : Yiq) : Pixel := (C.CHANNELS a).clampPack

/-- The kernel of class `c` and phase `p` under `q`: its T taps in order (R23). -/
def Config.kernel (C : Config) (q : Params) (c p : Nat) : List Yiq := (List.range C.T).map (C.gen q c p)

/-- The component-wise sum of the taps of a kernel; its luma component is `SY(c, p)` of R128. -/
def Config.kernelSum (C : Config) (q : Params) (c p : Nat) : Yiq := Yiq.sum (C.kernel q c p)

/-- The phase of the input pixel whose tap `t` lands on a column whose own pixel has phase `a` (R129). -/
def Config.flatPhase (C : Config) (a t : Nat) : Nat :=
  (((a : Int) + ((C.LEFT : Int) - t) * C.STEP) % C.P).toNat

/-- `S(c, a)`: what an interior column of a flat row accumulates (R129). -/
def Config.flatSum (C : Config) (q : Params) (c a : Nat) : Yiq :=
  Yiq.sum ((List.range C.T).map fun t => C.gen q c (C.flatPhase a t) t)

/-- The widths the hardware is built with, in the layout of `P_FMT` (R36, R53). -/
def builtFmt : Word := BitVec.ofNat 32 (inBits + outBits * 2 ^ 8)

/-- SETUP's format check: the claimed widths are the built ones and bits 31:16 are 0 (R36, R123). -/
def Params.fmtMatches (q : Params) : Bool :=
  decide (q.fmt.toNat % 2 ^ 8 = inBits ∧ q.fmt.toNat / 2 ^ 8 % 2 ^ 8 = outBits ∧ q.fmt.toNat / 2 ^ 16 = 0)

/-- What SETUP accepts: the format check, then VALID (R122). -/
def Config.accepts (C : Config) (q : Params) : Bool := q.fmtMatches && C.VALID q

end Sys2Proof
end

