-- ==== Sys2Proof/Machine/Reference.lean ====
section
/-!
DEFINITION. The reference configuration REF (spec 45_reference_configuration R200 to R216), in integer arithmetic.
-/

namespace Sys2Proof.Ref

/-- NEUTRAL (R205). -/
def neutral : Params :=
  { fmt := 0x00001010#32, hue := 0#32, sat := 256#32, con := 256#32, bri := 0#32, sharp := 0#32, bleed := 0#32 }

/-- VALID (R204, R206): every word inside its valid range; `P_BRI` is read as a signed word. -/
def valid (q : Params) : Bool :=
  decide (q.fmt = 0x00001010#32 ∧ q.hue.toNat ≤ 11 ∧ q.sat.toNat ≤ 512 ∧ q.con.toNat ≤ 512 ∧
    -128 ≤ q.bri.toInt ∧ q.bri.toInt ≤ 127 ∧ q.sharp.toNat ≤ 256 ∧ q.bleed.toNat ≤ 256)

/-- Widening a 5-bit channel to 8 bits (R207). -/
def widen5 (v : Nat) : Nat := v * 2 ^ 3 + v / 2 ^ 2

/-- Widening a 6-bit channel to 8 bits (R207). -/
def widen6 (v : Nat) : Nat := v * 2 ^ 2 + v / 2 ^ 4

/-- R8, G8 and B8 of a pixel (R207). -/
def expand (px : Pixel) : Rgb :=
  { r := (widen5 (Pixel.red px) : Nat), g := (widen6 (Pixel.green px) : Nat), b := (widen5 (Pixel.blue px) : Nat) }

/-- COS12, the cosine of `30 * k` degrees times 256 (R209). -/
def cos12 (k : Nat) : Int := [256, 222, 128, 0, -128, -222, -256, -222, -128, 0, 128, 222].getD k 0

/-- SIN12 (R209). -/
def sin12 (k : Nat) : Int := [0, 128, 222, 256, 222, 128, 0, -128, -222, -256, -222, -128].getD k 0

/-- `Y0`, `I0`, `Q0`: the constant conversion (R208). -/
def yiqOf (c : Rgb) : Yiq :=
  { y := 77 * c.r + 150 * c.g + 29 * c.b
    i := 153 * c.r - 70 * c.g - 83 * c.b
    q := 54 * c.r - 134 * c.g + 80 * c.b }

/-- `decode(px, params)` (R208). -/
def decodePixel (px : Pixel) (q : Params) : Yiq :=
  let s0 := yiqOf (expand px)
  let hue := q.hue.toNat
  { y := asr (q.con.toNat * s0.y) 8 + q.bri.toInt * 2 ^ 8
    i := asr (q.sat.toNat * (s0.i * cos12 hue - s0.q * sin12 hue)) 16
    q := asr (q.sat.toNat * (s0.i * sin12 hue + s0.q * cos12 hue)) 16 }

/-- BLURY, luma low-pass (R210). -/
def blurY (t : Nat) : Int := [1, 4, 6, 4, 1].getD t 0

/-- DELTA, no spread (R210). -/
def delta (t : Nat) : Int := [0, 0, 16, 0, 0].getD t 0

/-- NARROWC, chroma low-pass (R210). -/
def narrowC (t : Nat) : Int := [0, 4, 8, 4, 0].getD t 0

/-- BLURC, chroma wide low-pass (R210). -/
def blurC (t : Nat) : Int := [2, 4, 4, 4, 2].getD t 0

/-- X, chroma-to-luma crosstalk (R210). -/
def xtalk (t : Nat) : Int := [0, 1, 0, 0, -1].getD t 0

/-- XG, crosstalk gain (R210). -/
def xtalkGain : Int := 2

/-- `LY[t]` (R210). -/
def lumaTap (q : Params) (t : Nat) : Int := (256 - q.sharp.toNat) * blurY t + q.sharp.toNat * delta t

/-- `LC[t]` (R210). -/
def chromaTap (q : Params) (t : Nat) : Int := (256 - q.bleed.toNat) * narrowC t + q.bleed.toNat * blurC t

/-- `C[p]`, the phase-rotated chroma (R211). -/
def carrier (s : Yiq) (p : Nat) : Int := s.i * cos12 (4 * p) + s.q * sin12 (4 * p)

/-- Tap `t` of `build_kernel(sample, p, params)` (R211). -/
def buildKernel (s : Yiq) (p : Nat) (q : Params) (t : Nat) : Yiq :=
  { y := lumaTap q t * s.y + xtalkGain * xtalk t * carrier s p
    i := chromaTap q t * s.i
    q := chromaTap q t * s.q }

/-- The slot rounded to 8 fraction bits (R216). -/
def rounded (a : Yiq) : Yiq := ⟨asr (a.y + 2048) 12, asr (a.i + 2048) 12, asr (a.q + 2048) 12⟩

/-- The 8-bit channel values of a slot before the clamp (R216). -/
def rgb8 (a : Yiq) : Rgb :=
  let s := rounded a
  { r := asr (256 * s.y + 245 * s.i + 159 * s.q + 32768) 16
    g := asr (256 * s.y - 70 * s.i - 166 * s.q + 32768) 16
    b := asr (256 * s.y - 283 * s.i + 436 * s.q + 32768) 16 }

/-- FINAL as R216 writes it: clamp the 8-bit channels, cut them to 5, 6 and 5 bits, pack. -/
def final (a : Yiq) : Pixel :=
  let c := rgb8 a
  BitVec.ofNat 16 (((clamp c.r 0 255).toNat / 2 ^ 3) * 2 ^ 11 + ((clamp c.g 0 255).toNat / 2 ^ 2) * 2 ^ 5
    + (clamp c.b 0 255).toNat / 2 ^ 3)

/-- The channel values of the 5, 6 and 5 bit channels before the clamp. Cutting before the clamp or after it is the
same (`Sys2Proof.Laws.ref_final_eq`). -/
def channels (a : Yiq) : Rgb :=
  let c := rgb8 a
  { r := asr c.r 3, g := asr c.g 2, b := asr c.b 3 }

end Sys2Proof.Ref

namespace Sys2Proof

/-- The reference configuration (R201, R202), on a platform whose register block stands at a free page and whose pixel
memory is all backed (95_test_vectors: ADMITS true everywhere). -/
def Config.ref : Config :=
  { P := 3, STEP := 1, T := 5, LEFT := 2, NCLASS := 65536
    CLASSIFY := fun px => px.toNat
    REP := fun c => BitVec.ofNat 16 c
    ADJ := fun raw => raw
    KW := 32, AW := 32
    VALID := Ref.valid
    DECODE := Ref.decodePixel
    BUILD_KERNEL := Ref.buildKernel
    CHANNELS := Ref.channels
    NEUTRAL := Ref.neutral
    ETOL := 0, NUM_ENGINES := 1
    BASE := Config.platformPage ++ 0#12
    ADMITS := fun _ => true }

end Sys2Proof
end

