-- ==== Sys2Proof/Machine/State.lean ====
section
/-!
DEFINITION. The state of the NFB (spec 10_state), of the agents outside it, and the state after reset (R53, R270).
-/

namespace Sys2Proof.Machine

/-- Pixel memory: the listed bytes, addresses strictly rising, none equal to what an unlisted address reads as
(`Memory.wf`); 2^32 bytes in all (R60). -/
abbrev Memory := List Host.Cell

/-- The index of a bank, one bit: false is bank 0, true is bank 1 (R27). -/
abbrev BankIx := Bool

/-- What a bank holds. A bank is written only as a whole, with `GEN(params)` (R27, R134), so its image is named by the
parameters it was built from; before that its contents are unspecified (R53). -/
inductive Bank where
  /-- Not filled since reset; `tag` makes the contents of each bank after each reset their own free values. -/
  | unspecified (tag : Nat)
  /-- The table image `GEN(params)`. -/
  | image (params : Params)
deriving DecidableEq, Repr

/-- The result codes of `STATUS.ERR`; 5 to 15 are never produced (R30, R241, U12). -/
inductive ErrCode where
  | none
  | configuration
  | uninitializedTable
  | lengthMismatch
  | illegalCommand
deriving DecidableEq, Repr

/-- `LOP`: which command is running (R43). -/
inductive Running where
  | setup
  | blit
deriving DecidableEq, Repr

/-- One engine: its registers (R28 to R39) and its hidden state (R42 to R47). `CMD` holds no value (R29) and `CAP` is a
constant of the configuration (R38). -/
structure Engine where
  /-- `STATUS.BUSY` (R30) -/
  busy : Bool
  /-- `STATUS.ERR` (R30) -/
  err : ErrCode
  /-- `STATUS.S_CFG` (R30) -/
  sCfg : Bool
  /-- `STATUS.S_UNINIT` (R30) -/
  sUninit : Bool
  /-- `STATUS.S_LEN` (R30) -/
  sLen : Bool
  /-- `STATUS.S_ILL` (R30) -/
  sIll : Bool
  /-- `SRC` (R31) -/
  src : Word
  /-- `DST` (R32) -/
  dst : Word
  /-- `SRCLEN` (R33) -/
  srcLen : BitVec 16
  /-- `DSTLEN` (R34) -/
  dstLen : BitVec 16
  /-- `PHASE`, an integer in [0, P) (R35) -/
  phase : Nat
  /-- `P_FMT` to `P_BLEED` (R36, R37) -/
  params : Params
  /-- `KRES_Y` (R39) -/
  kresY : Word
  /-- `KRES_I` (R39) -/
  kresI : Word
  /-- `KRES_Q` (R39) -/
  kresQ : Word
  /-- `LOP` (R43) -/
  lop : Running
  /-- `LBANK` (R44) -/
  lbank : BankIx
  /-- `LPH` (R44) -/
  lph : Nat
  /-- `COL` (R45) -/
  col : Nat
  /-- `WB` (R46) -/
  wb : Int
  /-- `W`, T slots (R47) -/
  w : List Yiq
deriving DecidableEq, Repr

/-- One operation of a host agent (R66, R100, R101). A register offset is relative to BASE, in the 4096 bytes of the
register space (R60). -/
inductive HostOp where
  /-- `WR`: write the register at `off` -/
  | wr (off : BitVec 12) (v : Word)
  /-- `RD`: read the register at `off` -/
  | rd (off : BitVec 12)
  /-- `MW`: 2-byte write to pixel memory -/
  | mw (a : Word) (v : Pixel)
  /-- `MR`: 2-byte read of pixel memory -/
  | mr (a : Word)
  /-- `WAIT e`: read `STATUS` of engine `e` until BUSY reads 0 -/
  | wait (e : BitVec 4)
deriving DecidableEq, Repr

/-- A host agent: what it has still to do, the write it has issued that a busy engine holds (R41), and the values its
reads have returned, oldest first (a 2-byte value zero-extended). -/
structure HostAgent where
  ops : List HostOp
  held : Option (BitVec 12 × Word)
  seen : List Word
deriving DecidableEq, Repr

/-- Who takes a step (R17, R270). -/
inductive Agent where
  | host (h : Nat)
  | engine (e : Nat)
  | reset
deriving DecidableEq, Repr

/-- The whole state: the shared state (R27), the engines (R28, R42), pixel memory (R60), and the agents outside. -/
structure State where
  /-- `KT[0]` (R27) -/
  kt0 : Bank
  /-- `KT[1]` (R27) -/
  kt1 : Bank
  /-- `ACTIVE` (R27) -/
  active : BankIx
  /-- `TVALID` (R27) -/
  tvalid : Bool
  /-- the engines, engine `e` at index `e` (R254) -/
  engines : List Engine
  /-- pixel memory (R60) -/
  mem : Memory
  /-- the model's own: the engine whose CMD register the write in progress addresses (R29, R94) -/
  port : Nat
  /-- the model's own: the host agents (R17) -/
  hosts : List HostAgent
  /-- the model's own: which agent moves next, taken in turn (R17, U13) -/
  sched : List Agent
  /-- the model's own: how many resets there have been -/
  resets : Nat
deriving DecidableEq, Repr

/-- Why the machine stops. -/
inductive Fault where
  /-- A host agent's own pixel-memory access at an address the platform does not back. The spec gives the outcome for an
  engine's access only (R68). Raised by `hostIssue`. Safe: the model stops where the platform may go on. -/
  | hostAccessUnbacked
deriving DecidableEq, Repr

/-- Why there is no meaning. -/
inductive Refusal where
  /-- The instruction has no meaning in this model yet. Raised by `exec`; no arm does. Safe. -/
  | notModelled (mnemonic : String)
  /-- A register access at an offset that is not a multiple of 4, which the spec does not define and tells a model to
  refuse (R66, U7). Raised by `hostIssue`. Safe. -/
  | unalignedRegisterAccess
deriving DecidableEq, Repr

/-- An engine after reset (R53); `LOP`, `LBANK`, `LPH`, `COL`, `WB`, `W` have no value in the spec (log 7). -/
def Engine.reset (C : Config) : Engine :=
  { busy := false, err := .none, sCfg := false, sUninit := false, sLen := false, sIll := false
    src := 0#32, dst := 0#32, srcLen := 0#16, dstLen := 0#16, phase := 0
    params := { C.NEUTRAL with fmt := builtFmt }
    kresY := 0#32, kresI := 0#32, kresQ := 0#32
    lop := .setup, lbank := false, lph := 0, col := 0, wb := 0, w := List.replicate C.T Yiq.zero }

/-- The state after the reset numbered `n`, with what reset does not touch: pixel memory, the host agents and the
order of the agents (R53, R270). -/
def State.afterReset (C : Config) (n : Nat) (mem : Memory) (hosts : List HostAgent) (sched : List Agent) : State :=
  { kt0 := .unspecified (2 * n), kt1 := .unspecified (2 * n + 1), active := false, tvalid := false
    engines := List.replicate C.NUM_ENGINES (Engine.reset C)
    mem := mem, port := 0, hosts := hosts, sched := sched, resets := n }

/-- Power-on of configuration `C`: the state after reset (R270), no host agent, nothing listed in pixel memory, and one
turn for each engine. -/
def State.resetOf (C : Config) : State :=
  State.afterReset C 0 [] [] ((List.range C.NUM_ENGINES).map Agent.engine)

/-- The machine right after reset, in REF. -/
def State.reset : State := State.resetOf Config.ref

end Sys2Proof.Machine
end

