-- ==== Sys2Proof/Machine/Ops.lean ====
section
/-!
DEFINITION. The named operations over pixel memory, the engines, the banks and the errors (spec 20_memory R62, R63, R68;
10_state R27, R48; 41_lookup R151; 60_exceptions R246, R247; 70_reset R270).
-/

namespace Sys2Proof.Machine

/-! ### Pixel memory -/

/-- What an unlisted byte reads as (DESIGN CHOICE, log 8). -/
def unlistedByte : Byte := 0#8

/-- The byte at address `a`. -/
def Memory.read : Memory → Nat → Byte
  | [], _ => unlistedByte
  | (b, v) :: rest, a => if b = a then v else Memory.read rest a

/-- Put an entry before a memory, unless it says what an unlisted address reads as anyway. -/
def Memory.cons (a : Nat) (v : Byte) (m : Memory) : Memory :=
  if v = unlistedByte then m else (a, v) :: m

/-- Store a byte, keeping the canonical form. -/
def Memory.write : Memory → Nat → Byte → Memory
  | [], a, v => Memory.cons a v []
  | (b, u) :: rest, a, v =>
    if a < b then Memory.cons a v ((b, u) :: rest)
    else if a = b then Memory.cons a v rest
    else (b, u) :: Memory.write rest a v

/-- Every address of the memory is at least `lo` and below 2^32, they rise strictly, and no entry is redundant. -/
def Memory.wfFrom : Nat → Memory → Bool
  | _, [] => true
  | lo, (a, v) :: rest => decide (lo ≤ a ∧ a < 2 ^ 32 ∧ v ≠ unlistedByte) && Memory.wfFrom (a + 1) rest

/-- The canonical form. -/
def Memory.wf (m : Memory) : Bool := Memory.wfFrom 0 m

/-- `MemRead(a, 2)`: little-endian, addresses modulo 2^32 (R15, R62). -/
def Memory.read16 (m : Memory) (a : Word) : Pixel :=
  Memory.read m (a + 1#32).toNat ++ Memory.read m a.toNat

/-- `MemWrite(a, 2, v)`: little-endian, addresses modulo 2^32 (R15, R62). -/
def Memory.write16 (m : Memory) (a : Word) (v : Pixel) : Memory :=
  Memory.write (Memory.write m a.toNat (v.extractLsb' 0 8)) (a + 1#32).toNat (v.extractLsb' 8 8)

/-- The byte address of pixel `n` of the row at `base` (R63). -/
def pixelAddr (base : Word) (n : Nat) : Word := base + BitVec.ofNat 32 (2 * n)

/-- The platform backs both bytes of a 2-byte access (R68). -/
def admitted16 (C : Config) (a : Word) : Bool := C.ADMITS a && C.ADMITS (a + 1#32)

/-! ### Engines and host agents -/

def State.setEngine (s : State) (e : Nat) (E : Engine) : State := { s with engines := s.engines.set e E }

def State.setHost (s : State) (h : Nat) (H : HostAgent) : State := { s with hosts := s.hosts.set h H }

/-! ### The kernel table -/

/-- What a bank holds at class `c`, phase `p`, tap `t`: `GEN(params)` of the parameters it was built from (R127, R134),
or, before that, a free value of KW bits in each component (R53, log 6). -/
def Bank.tap (C : Config) (b : Bank) (c p t : Nat) : Yiq :=
  match b with
  | .image q => C.gen q c p t
  | .unspecified n =>
    let k := Config.unspecifiedTap n c p t
    ⟨wrapSigned C.KW k.y, wrapSigned C.KW k.i, wrapSigned C.KW k.q⟩

/-- The bank of an index. -/
def State.bank (s : State) (b : BankIx) : Bank := bif b then s.kt1 else s.kt0

/-- Write a whole bank. -/
def State.setBank (s : State) (b : BankIx) (k : Bank) : State :=
  bif b then { s with kt1 := k } else { s with kt0 := k }

/-- `KT[b][c][p][t]` (R14). -/
def State.tap (C : Config) (s : State) (b : BankIx) (c p t : Nat) : Yiq := (s.bank b).tap C c p t

/-- The primitive `lookup(b, c, p)`: a kernel of T taps (R151). -/
def lookupKernel (C : Config) (s : State) (b : BankIx) (c p : Nat) : List Yiq :=
  (List.range C.T).map (s.tap C b c p)

/-- A running BLIT reads bank `b`. -/
def Engine.latches (E : Engine) (b : BankIx) : Bool := E.busy && decide (E.lop = .blit) && decide (E.lbank = b)

/-- `REFCNT[b]` (R48). -/
def refcnt (s : State) (b : BankIx) : Nat := s.engines.countP (·.latches b)

/-! ### Errors: the analogue of taking an exception -/

/-- Set the sticky bit of an error code (R241). -/
def Engine.setSticky (E : Engine) : ErrCode → Engine
  | .none => E
  | .configuration => { E with sCfg := true }
  | .uninitializedTable => { E with sUninit := true }
  | .lengthMismatch => { E with sLen := true }
  | .illegalCommand => { E with sIll := true }

/-- `raise k`: the code into ERR, its sticky bit set, nothing else (R16, R246). -/
def Engine.raised (E : Engine) (k : ErrCode) : Engine := { E.setSticky k with err := k }

/-- Engine `e` raises error `k` at the acceptance of a command (R246). There is no return: the engine is idle and
accepts the next command like any other (R247). -/
def raiseError (s : State) (e : Nat) (k : ErrCode) : State :=
  match s.engines[e]? with
  | some E => s.setEngine e (E.raised k)
  | none => s

/-! ### Reset -/

/-- A held write is discarded by reset (R270); the agent goes on with its next operation (log 17). -/
def HostAgent.discardHeld (H : HostAgent) : HostAgent := { H with held := none }

/-- The reset step (R270): every piece of state at its value of R53, held writes discarded, pixel memory untouched. -/
def resetStep (C : Config) (s : State) : State :=
  State.afterReset C (s.resets + 1) s.mem (s.hosts.map HostAgent.discardHeld) s.sched

end Sys2Proof.Machine
end

