-- ==== Sys2Proof/Machine/Flags.lean ====
section
/-!
DEFINITION. The flags of the NFB are the fields of STATUS (spec 10_state R30, R51); CAP is its constant neighbour (R38).
-/

namespace Sys2Proof.Machine

/-- The number of a result code (R241). -/
def ErrCode.code : ErrCode → BitVec 4
  | .none => 0#4
  | .configuration => 1#4
  | .uninitializedTable => 2#4
  | .lengthMismatch => 3#4
  | .illegalCommand => 4#4

/-- The bits 11:8 of STATUS: S_ILL, S_LEN, S_UNINIT, S_CFG (R30). -/
def Engine.stickyBits (E : Engine) : BitVec 4 :=
  BitVec.ofBool E.sIll ++ BitVec.ofBool E.sLen ++ BitVec.ofBool E.sUninit ++ BitVec.ofBool E.sCfg

/-- What STATUS reads as: reserved bits 31:12 and 3:2 read 0 (R30). -/
def statusWord (tvalid : Bool) (E : Engine) : Word :=
  0#20 ++ E.stickyBits ++ E.err.code ++ 0#2 ++ BitVec.ofBool tvalid ++ BitVec.ofBool E.busy

/-- A write to STATUS: each of bits 11:8 whose bit in `v` is 1 is cleared, nothing else changes (R30). -/
def Engine.clearSticky (E : Engine) (v : Word) : Engine :=
  { E with
    sCfg := E.sCfg && !v.getLsbD 8
    sUninit := E.sUninit && !v.getLsbD 9
    sLen := E.sLen && !v.getLsbD 10
    sIll := E.sIll && !v.getLsbD 11 }

/-- `CAP`: P, T, LEFT, STEP from the low byte up (R38). -/
def capWord (C : Config) : Word :=
  BitVec.ofNat 8 C.STEP ++ BitVec.ofNat 8 C.LEFT ++ BitVec.ofNat 8 C.T ++ BitVec.ofNat 8 C.P

end Sys2Proof.Machine
end

