-- ==== Sys2Proof/Machine/Operands.lean ====
section
/-!
DEFINITION. The registers as operands: their map, what a read returns and what a write stores (spec 10_state R28 to R41).
The operands of the commands are these registers and the fields of a LOOKUP word (R49).
-/

namespace Sys2Proof.Machine

/-- The registers of one engine's block (R28). -/
inductive Reg where
  | cmd | status | src | dst | srcLen | dstLen | phase | cap
  | pFmt | pHue | pSat | pCon | pBri | pSharp | pBleed
  | kresY | kresI | kresQ
deriving DecidableEq, Repr

/-- The byte offset of a register inside the block (R28). -/
def Reg.offset : Reg → Nat
  | .cmd => 0x00 | .status => 0x04 | .src => 0x08 | .dst => 0x0C
  | .srcLen => 0x10 | .dstLen => 0x14 | .phase => 0x18 | .cap => 0x1C
  | .pFmt => 0x20 | .pHue => 0x24 | .pSat => 0x28 | .pCon => 0x2C
  | .pBri => 0x30 | .pSharp => 0x34 | .pBleed => 0x38
  | .kresY => 0x40 | .kresI => 0x44 | .kresQ => 0x48

/-- Every register, in the order of the map. -/
def Reg.all : List Reg :=
  [.cmd, .status, .src, .dst, .srcLen, .dstLen, .phase, .cap, .pFmt, .pHue, .pSat, .pCon, .pBri, .pSharp, .pBleed,
   .kresY, .kresI, .kresQ]

/-- The register at an offset inside the block; none at a reserved offset (R40). -/
def Reg.ofOffset (r : Nat) : Option Reg := Reg.all.find? fun g => decide (g.offset = r)

/-- The engine an offset in the register space belongs to (R28). -/
def offEngine (off : BitVec 12) : Nat := off.toNat / 0x100

/-- The offset inside the engine's block (R28). -/
def offReg (off : BitVec 12) : Nat := off.toNat % 0x100

/-- The offset of register `g` of engine `e` (R28, R100). -/
def regOff (e : Nat) (g : Reg) : BitVec 12 := BitVec.ofNat 12 (0x100 * e + g.offset)

/-- The byte address of register `g` of engine `e` on the host's bus (R28). -/
def regAddr (C : Config) (e : Nat) (g : Reg) : Word := C.BASE + (regOff e g).setWidth 32

/-- What a register of engine `E` reads as (R28 to R39). No read has a side effect (R41). -/
def readReg (C : Config) (tvalid : Bool) (E : Engine) : Reg → Word
  | .cmd => 0#32
  | .status => statusWord tvalid E
  | .src => E.src
  | .dst => E.dst
  | .srcLen => E.srcLen.setWidth 32
  | .dstLen => E.dstLen.setWidth 32
  | .phase => BitVec.ofNat 32 E.phase
  | .cap => capWord C
  | .pFmt => E.params.fmt
  | .pHue => E.params.hue
  | .pSat => E.params.sat
  | .pCon => E.params.con
  | .pBri => E.params.bri
  | .pSharp => E.params.sharp
  | .pBleed => E.params.bleed
  | .kresY => E.kresY
  | .kresI => E.kresI
  | .kresQ => E.kresQ

/-- `RegRead(off)`: a reserved offset and the block of an engine that does not exist read 0 (R40). -/
def regRead (C : Config) (s : State) (off : BitVec 12) : Word :=
  match s.engines[offEngine off]?, Reg.ofOffset (offReg off) with
  | some E, some g => readReg C s.tvalid E g
  | _, _ => 0#32

/-- `SRC` and `DST` hold an even address: bit 0 is hardwired to 0 (R31, R32). -/
def evenAddr (v : Word) : Word := v &&& 0xFFFFFFFE#32

/-- What a register write stores, for every register but CMD, whose write is a command (R29 to R39). Writes to the
read-only registers are ignored. -/
def Engine.writeReg (C : Config) (E : Engine) (g : Reg) (v : Word) : Engine :=
  match g with
  | .cmd => E
  | .status => E.clearSticky v
  | .src => { E with src := evenAddr v }
  | .dst => { E with dst := evenAddr v }
  | .srcLen => { E with srcLen := v.setWidth 16 }
  | .dstLen => { E with dstLen := v.setWidth 16 }
  | .phase => { E with phase := v.toNat % C.P }
  | .cap => E
  | .pFmt => { E with params := { E.params with fmt := v } }
  | .pHue => { E with params := { E.params with hue := v } }
  | .pSat => { E with params := { E.params with sat := v } }
  | .pCon => { E with params := { E.params with con := v } }
  | .pBri => { E with params := { E.params with bri := v } }
  | .pSharp => { E with params := { E.params with sharp := v } }
  | .pBleed => { E with params := { E.params with bleed := v } }
  | .kresY => E
  | .kresI => E
  | .kresQ => E

/-- The offsets of a block whose writes a busy engine holds: 0x00 to 0x48 (R41) but for the reserved 0x3C, whose writes
are never held (R40, log 14). -/
def heldOffset (r : Nat) : Bool := decide (r ≤ 0x48 ∧ r ≠ 0x3C)

/-- A write at `off` is held now (R41). -/
def writeHeld (s : State) (off : BitVec 12) : Bool :=
  match s.engines[offEngine off]? with
  | some E => E.busy && heldOffset (offReg off)
  | none => false

/-- LOOKUP's operands are in range (R152, R153). -/
def lookupInRange (C : Config) (cls ph tap : Nat) : Bool := decide (cls < C.NCLASS ∧ ph < C.P ∧ tap < C.T)

/-- A command takes effect on the engine whose CMD is written, if that engine exists (R40) and is idle (R29, R94); a
write that a busy engine holds has no effect yet (R41). -/
def atPort (s : State) (accept : Engine → State) : State :=
  match s.engines[s.port]? with
  | some E => bif E.busy then s else accept E
  | none => s

end Sys2Proof.Machine
end

