-- ==== Sys2Proof/Machine/Blit.lean ====
section
/-!
DEFINITION. The BLIT command (spec 42_blit R160 to R176): acceptance, and the steps of a running BLIT.
-/

namespace Sys2Proof.Machine

/-- The hidden state a BLIT starts with (R161). -/
def Engine.startBlit (C : Config) (active : BankIx) (E : Engine) : Engine :=
  { E with
    err := .none
    lop := .blit
    lbank := active
    lph := E.phase
    col := 0
    wb := -(C.LEFT : Int)
    w := List.replicate C.T Yiq.zero
    busy := true }

/-- BLIT, acceptance (R161): TVALID, then the lengths, then the hidden state is loaded (R162, R163). -/
def acceptBlit (C : Config) (s : State) : State :=
  atPort s fun E =>
    if !s.tvalid then raiseError s s.port .uninitializedTable
    else if E.srcLen ≠ E.dstLen then raiseError s s.port .lengthMismatch
    else s.setEngine s.port (E.startBlit C s.active)

/-- The row length N (R163). -/
def Engine.rowLen (E : Engine) : Nat := E.srcLen.toNat

/-- Slot 0 stands for a column of the row, so that retiring it writes memory (R174). -/
def Engine.retiresInRow (E : Engine) : Bool := decide (0 ≤ E.wb ∧ E.wb < E.rowLen)

/-- Where retiring slot 0 writes (R63, R174). -/
def Engine.retireAddr (E : Engine) : Word := pixelAddr E.dst E.wb.toNat

/-- Slot 0 of the window. -/
def Engine.slot0 (E : Engine) : Yiq := E.w.headD Yiq.zero

/-- The window moved down by one slot, a zero slot entering at the top (R174). -/
def shiftWindow : List Yiq → List Yiq
  | [] => []
  | _ :: rest => rest ++ [Yiq.zero]

/-- Retire slot 0, the engine's part (R174). -/
def Engine.retired (E : Engine) : Engine := { E with w := shiftWindow E.w, wb := E.wb + 1 }

/-- Retire slot 0, memory's part: the finalised pixel, or nothing for a column outside the row (R174). -/
def retireMem (C : Config) (E : Engine) (m : Memory) : Memory :=
  bif E.retiresInRow then Memory.write16 m E.retireAddr (C.final E.slot0) else m

/-- The platform backs what retiring slot 0 writes (R68). -/
def retireAdmitted (C : Config) (E : Engine) : Bool := !E.retiresInRow || admitted16 C E.retireAddr

/-- Where the pixel step reads (R63, R169). -/
def Engine.readAddr (E : Engine) : Word := pixelAddr E.src E.col

/-- Sub-actions 2 to 4 on the adjusted pixel `px`: look up the kernel of its class at the current phase in the latched
bank, add its taps to the slots, advance the phase (R171 to R173). -/
def Engine.accumulate (C : Config) (s : State) (E : Engine) (px : Pixel) : Engine :=
  { E with
    w := List.zipWith Yiq.add E.w (lookupKernel C s E.lbank (C.CLASSIFY px) E.lph)
    lph := (E.lph + C.STEP) % C.P }

/-- The engine after sub-actions 1 to 4 of the pixel step: read, adjust, look up, accumulate, advance (R169 to R173). -/
def Engine.consumed (C : Config) (s : State) (E : Engine) : Engine :=
  E.accumulate C s (C.ADJ (Memory.read16 s.mem E.readAddr))

/-- The pixel step's accesses are backed (R68). Accumulating changes neither WB nor DST. -/
def pixelAdmitted (C : Config) (E : Engine) : Bool := admitted16 C E.readAddr && retireAdmitted C E

/-- The pixel step (R169). -/
def pixelStep (C : Config) (e : Nat) (E : Engine) (s : State) : State :=
  let F := E.consumed C s
  { s with mem := retireMem C F s.mem }.setEngine e { F.retired with col := E.col + 1 }

/-- The flush step (R175). -/
def flushStep (C : Config) (e : Nat) (E : Engine) (s : State) : State :=
  { s with mem := retireMem C E s.mem }.setEngine e E.retired

/-- BLIT, completion step (R176). -/
def completeBlit (e : Nat) (E : Engine) (s : State) : State :=
  s.setEngine e { E with phase := E.lph, busy := false }

/-- The step a running BLIT has enabled (R168): pixel, flush or completion; a step with an unadmitted access is not
enabled and leaves the engine stuck (R68, R258). -/
def blitStep (C : Config) (e : Nat) (E : Engine) (s : State) : State :=
  if E.col < E.rowLen then
    if pixelAdmitted C E then pixelStep C e E s else s
  else if E.wb < E.rowLen then
    if retireAdmitted C E then flushStep C e E s else s
  else completeBlit e E s

/-- The meaning of BLIT in REF: its acceptance step. -/
def execBlit (s : State) : Host.Outcome State Fault Refusal := .next (acceptBlit Config.ref s)

end Sys2Proof.Machine
end

