-- ==== Sys2Proof/Machine/Lookup.lean ====
section
/-!
DEFINITION. The LOOKUP command (spec 41_lookup R152 to R154).
-/

namespace Sys2Proof.Machine

/-- LOOKUP (R152): operand range first, then TVALID, then one tap of the active bank into the result registers. -/
def performLookup (C : Config) (cls ph tap : Nat) (s : State) : State :=
  atPort s fun E =>
    if !lookupInRange C cls ph tap then raiseError s s.port .illegalCommand
    else if !s.tvalid then raiseError s s.port .uninitializedTable
    else
      let k := s.tap C s.active cls ph tap
      s.setEngine s.port
        { E with kresY := truncWord k.y, kresI := truncWord k.i, kresQ := truncWord k.q, err := .none }

/-- The meaning of LOOKUP in REF. -/
def execLookup (cls ph tap : Nat) (s : State) : Host.Outcome State Fault Refusal :=
  .next (performLookup Config.ref cls ph tap s)

end Sys2Proof.Machine
end

