-- ==== Sys2Proof/Machine/Setup.lean ====
section
/-!
DEFINITION. The SETUP command (spec 40_setup R122 to R125, R133, R134).
-/

namespace Sys2Proof.Machine

/-- SETUP, acceptance (R122): the format check and the range check, then ERR, LOP and BUSY. A failed check raises
ConfigurationError (R123, R124, R125). -/
def acceptSetup (C : Config) (s : State) : State :=
  atPort s fun E =>
    if C.accepts E.params then s.setEngine s.port { E with err := .none, lop := .setup, busy := true }
    else raiseError s s.port .configuration

/-- SETUP's completion step is enabled: no running BLIT reads the shadow bank (R134). -/
def setupEnabled (s : State) : Bool := decide (refcnt s (!s.active) = 0)

/-- SETUP, completion step (R134): fill the shadow bank, publish it, end. -/
def completeSetup (e : Nat) (E : Engine) (s : State) : State :=
  let filled := s.setBank (!s.active) (.image E.params)
  { filled with active := !s.active, tvalid := true }.setEngine e { E with busy := false }

/-- The meaning of SETUP in REF: its acceptance step. -/
def execSetup (s : State) : Host.Outcome State Fault Refusal := .next (acceptSetup Config.ref s)

end Sys2Proof.Machine
end

