-- ==== Sys2Proof/Machine/Dispatch.lean ====
section
/-!
DEFINITION. One arm per command: its acceptance on the engine whose CMD is written (spec 30_encoding R94).
-/

namespace Sys2Proof.Machine

/-- The acceptance of a command. -/
def exec (i : Instr) (s : State) : Host.Outcome State Fault Refusal :=
  match i with
  | .setup => Sys2Proof.Machine.execSetup s
  | .blit => Sys2Proof.Machine.execBlit s
  | .lookup cls ph tap => Sys2Proof.Machine.execLookup cls ph tap s

end Sys2Proof.Machine
end

