-- ==== Sys2Proof/Machine/Agents.lean ====
section
/-!
DEFINITION. The steps of the agents (spec 00_scope R17): a host's register and memory operations (R41, R66, R70, R94,
R100, R101), an engine's own steps (R134, R168), reset (R270), and whose turn it is. `run` is the acceptance of a decoded
command: `exec` for the machine in REF, `execIn C` for any configuration `C`.
-/

namespace Sys2Proof.Machine

/-- What the acceptance of a decoded command does. -/
abbrev Acceptance := Instr → State → Host.Outcome State Fault Refusal

/-- The acceptance of a command in configuration `C`. -/
def execIn (C : Config) : Acceptance
  | .setup, s => .next (acceptSetup C s)
  | .blit, s => .next (acceptBlit C s)
  | .lookup cls ph tap, s => .next (performLookup C cls ph tap s)

/-- The acceptance step: word `w` written to CMD of engine `e` (R94). A word that is no command raises IllegalCommand
(R95, R245). -/
def acceptCommand (run : Acceptance) (e : Nat) (w : Word) (s : State) : Host.Outcome State Fault Refusal :=
  match decode w with
  | .ok i => run i { s with port := e }
  | .error _ => .next (raiseError s e .illegalCommand)

/-- `RegWrite(off, v)` when it takes place (R28 to R41): a write to CMD is a command, any other write only stores, a
write to a reserved offset is ignored (R40). -/
def regWrite (C : Config) (run : Acceptance) (off : BitVec 12) (v : Word) (s : State) :
    Host.Outcome State Fault Refusal :=
  match s.engines[offEngine off]?, Reg.ofOffset (offReg off) with
  | some _, some .cmd => acceptCommand run (offEngine off) v s
  | some E, some g => .next (s.setEngine (offEngine off) (E.writeReg C g v))
  | _, _ => .next s

/-- The host accesses registers as aligned words only (R66, U7). -/
def offAligned (off : BitVec 12) : Bool := decide (off.toNat % 4 = 0)

/-- Host agent `h` takes up its next operation `op`; `H` is the agent with that operation taken off its list. -/
def hostIssue (C : Config) (run : Acceptance) (h : Nat) (H : HostAgent) (op : HostOp) (s : State) :
    Host.Outcome State Fault Refusal :=
  match op with
  | .wr off v =>
    if !offAligned off then .refused .unalignedRegisterAccess
    else if writeHeld s off then .next (s.setHost h { H with held := some (off, v) })
    else regWrite C run off v (s.setHost h H)
  | .rd off =>
    if !offAligned off then .refused .unalignedRegisterAccess
    else .next (s.setHost h { H with seen := H.seen ++ [regRead C s off] })
  | .mw a v =>
    if admitted16 C a then .next { s.setHost h H with mem := Memory.write16 s.mem a v }
    else .fault .hostAccessUnbacked
  | .mr a =>
    if admitted16 C a then
      .next (s.setHost h { H with seen := H.seen ++ [(Memory.read16 s.mem a).setWidth 32] })
    else .fault .hostAccessUnbacked
  | .wait e =>
    let v := regRead C s (regOff e.toNat .status)
    if v.getLsbD 0 then .next s else .next (s.setHost h { H with seen := H.seen ++ [v] })

/-- One turn of host agent `h`: a held write takes place once the engine is idle, and until then the agent does not
proceed (R41); otherwise its next operation. -/
def hostStep (C : Config) (run : Acceptance) (h : Nat) (s : State) : Host.Outcome State Fault Refusal :=
  match s.hosts[h]? with
  | none => .next s
  | some H =>
    match H.held with
    | some (off, v) =>
      if writeHeld s off then .next s else regWrite C run off v (s.setHost h { H with held := none })
    | none =>
      match H.ops with
      | [] => .next s
      | op :: rest => hostIssue C run h { H with ops := rest } op s

/-- One turn of engine `e`: the step its running command has enabled, nothing when it is idle or no step is enabled. -/
def engineStep (C : Config) (e : Nat) (s : State) : State :=
  match s.engines[e]? with
  | none => s
  | some E =>
    if !E.busy then s
    else
      match E.lop with
      | .setup => if setupEnabled s then completeSetup e E s else s
      | .blit => blitStep C e E s

/-- The turn of an agent. -/
def takeTurn (C : Config) (run : Acceptance) (a : Agent) (s : State) : Host.Outcome State Fault Refusal :=
  match a with
  | .host h => hostStep C run h s
  | .engine e => .next (engineStep C e s)
  | .reset => .next (resetStep C s)

/-- The agent at the head of the schedule takes its turn and goes to the end of it; with nobody scheduled, nothing
moves (log 3). -/
def scheduledStep (C : Config) (run : Acceptance) (s : State) : Host.Outcome State Fault Refusal :=
  match s.sched with
  | [] => .next s
  | a :: rest => takeTurn C run a { s with sched := rest ++ [a] }

/-- One step of the machine of configuration `C`. -/
def stepIn (C : Config) (s : State) : Host.Outcome State Fault Refusal := scheduledStep C (execIn C) s

/-- The machine of configuration `C`. -/
abbrev coreIn (C : Config) : Host.Core :=
  { State := State, Fault := Fault, Refusal := Refusal, step := stepIn C, reset := State.resetOf C }

/-- A new host agent whose one operation is `WR e.CMD, w`, with the next turn. -/
def State.withCommand (s : State) (e : Nat) (w : Word) : State :=
  { s with
    hosts := s.hosts ++ [{ ops := [.wr (regOff e .cmd) w], held := none, seen := [] }]
    sched := .host s.hosts.length :: s.sched }

end Sys2Proof.Machine
end

