-- ==== Sys2Proof/Machine/Step.lean ====
section
/-!
DEFINITION. One step of the machine in REF, and the placing of a command word where the next step takes it.
-/

namespace Sys2Proof.Machine

/-- One step: the turn of the next agent of the schedule (spec 00_scope R17). -/
def step (s : State) : Host.Outcome State Fault Refusal := scheduledStep Config.ref exec s

/-- `s` with a host agent added that writes the command word of `nbits` bits `w` to CMD of engine 0, and whose turn is
next (log 19). -/
def State.withFetchWord (s : State) (nbits w : Nat) : State := s.withCommand 0 (BitVec.ofNat 32 (w % 2 ^ nbits))

end Sys2Proof.Machine
end

