-- ==== Sys2Proof/Machine/Constraints.lean ====
section
/-!
DEFINITION. What makes a configuration an NFB: the constraints of spec 00_scope R10 and R11, 40_setup R124 and
R127 to R131, 42_blit R177. A configuration that breaks one is refused as a subject of any statement (U11).
-/

namespace Sys2Proof

/-- The bounds of the parameter table (R10), the ranges of the classifier (R10, R127) and the constraints on VALID. -/
structure Config.ScalarsOk (C : Config) : Prop where
  P_pos : 1 ≤ C.P
  P_le : C.P ≤ 255
  STEP_lt : C.STEP < C.P
  T_pos : 1 ≤ C.T
  T_le : C.T ≤ 15
  LEFT_lt : C.LEFT ≤ C.T - 1
  NCLASS_pos : 1 ≤ C.NCLASS
  NCLASS_le : C.NCLASS ≤ 65536
  KW_ge : 2 ≤ C.KW
  KW_le : C.KW ≤ 32
  AW_ge : C.KW ≤ C.AW
  AW_le : C.AW ≤ 64
  ENGINES_pos : 1 ≤ C.NUM_ENGINES
  ENGINES_le : C.NUM_ENGINES ≤ 15
  BASE_aligned : C.BASE.toNat % 0x1000 = 0
  CLASSIFY_lt : ∀ px, C.CLASSIFY px < C.NCLASS
  CLASSIFY_REP : ∀ c, c < C.NCLASS → C.CLASSIFY (C.REP c) = c
  NEUTRAL_valid : C.VALID C.NEUTRAL = true
  NEUTRAL_fmt : C.NEUTRAL.fmt = builtFmt

/-- R11: for every table image, every tap component fits KW bits, and for every choice of one tap from each tap
position the sum of each component fits AW bits. -/
structure Config.NoOverflow (C : Config) : Prop where
  taps : ∀ q c p t, C.VALID q = true → c < C.NCLASS → p < C.P → t < C.T → (C.gen q c p t).fits C.KW
  sums : ∀ (q : Params) (cls ph : Nat → Nat), C.VALID q = true → (∀ t, cls t < C.NCLASS) → (∀ t, ph t < C.P) →
    (Yiq.sum ((List.range C.T).map fun t => C.gen q (cls t) (ph t) t)).fits C.AW

/-- R128: the luma sums of one class differ by at most ETOL between phases. -/
def Config.EnergyConserved (C : Config) : Prop :=
  ∀ q c p p', C.VALID q = true → c < C.NCLASS → p < C.P → p' < C.P →
    |(C.kernelSum q c p).y - (C.kernelSum q c p').y| ≤ C.ETOL

/-- R129: what an interior column of a flat row yields does not depend on its phase. -/
def Config.FlatField (C : Config) : Prop :=
  ∀ q c a a', C.VALID q = true → c < C.NCLASS → a < C.P → a' < C.P →
    C.final (C.flatSum q c a) = C.final (C.flatSum q c a')

/-- R130: a class without chroma has chroma taps that sum to zero, and white under NEUTRAL is such a class. -/
structure Config.ZeroSaturation (C : Config) : Prop where
  sums : ∀ q c p, C.VALID q = true → c < C.NCLASS → p < C.P →
    (C.DECODE (C.REP c) q).i = 0 → (C.DECODE (C.REP c) q).q = 0 →
    (C.kernelSum q c p).i = 0 ∧ (C.kernelSum q c p).q = 0
  white : (C.DECODE 0xFFFF#16 C.NEUTRAL).i = 0 ∧ (C.DECODE 0xFFFF#16 C.NEUTRAL).q = 0

/-- The configuration is an NFB. -/
structure Config.Admissible (C : Config) : Prop where
  scalars : C.ScalarsOk
  noOverflow : C.NoOverflow
  energy : C.EnergyConserved
  flat : C.FlatField
  saturation : C.ZeroSaturation
  /-- black in, black out (R177) -/
  final_zero : C.final Yiq.zero = 0#16

end Sys2Proof
end

