-- ==== Sys2Proof/Safety.lean ====
section
/-!
DEFINITION. What holds of every state the hardware can be in, and what a row of BLIT computes: the terms in which
statements about the NFB are made (spec 10_state R30 to R53; 42_blit R165, R168; 20_memory R63, R73, R76).
-/

namespace Sys2Proof.Machine

/-! ### The invariant -/

/-- What holds of a running BLIT between its steps (R44 to R47, R163, R168). -/
structure Engine.BlitOk (C : Config) (E : Engine) : Prop where
  lens : E.srcLen = E.dstLen
  lph : E.lph = (E.phase + E.col * C.STEP) % C.P
  col_le : E.col ≤ E.rowLen
  wb_filling : E.col < E.rowLen → E.wb = E.col - C.LEFT
  wb_flushing : E.col = E.rowLen → (E.rowLen : Int) - C.LEFT ≤ E.wb ∧ E.wb ≤ E.rowLen
  w_length : E.w.length = C.T

/-- What holds of an engine: the hardwired bits of SRC and DST (R31, R32), the range of PHASE (R35), ERR of a running
command (R30), the parameters of a running SETUP (R122), and the state of a running BLIT. -/
structure Engine.Ok (C : Config) (E : Engine) : Prop where
  src_even : E.src.getLsbD 0 = false
  dst_even : E.dst.getLsbD 0 = false
  phase_lt : E.phase < C.P
  busy_err : E.busy = true → E.err = .none
  setup : E.busy = true → E.lop = .setup → C.accepts E.params = true
  blit : E.busy = true → E.lop = .blit → E.BlitOk C

/-- A bank holds a whole table image that SETUP accepted the parameters of. -/
def Bank.isTable (C : Config) (b : Bank) : Prop := ∃ q, b = .image q ∧ C.accepts q = true

/-- What holds of the state: the number of engines (R254), each engine, the canonical form of pixel memory, the published
bank once TVALID is set, and the bank of every running BLIT (R51, R73, R134). -/
structure State.Ok (C : Config) (s : State) : Prop where
  engines_length : s.engines.length = C.NUM_ENGINES
  engines : ∀ (e : Nat) (E : Engine), s.engines[e]? = some E → E.Ok C
  mem : Memory.wf s.mem = true
  published : s.tvalid = true → (s.bank s.active).isTable C
  latched : ∀ (e : Nat) (E : Engine), s.engines[e]? = some E → E.busy = true → E.lop = .blit →
    s.tvalid = true ∧ (s.bank E.lbank).isTable C

/-! ### The row -/

/-- The byte address `a` is one of the two bytes of pixel `n` of the row at `base` (R63). -/
def inPixel (base : Word) (n : Nat) (a : Word) : Prop := a = pixelAddr base n ∨ a = pixelAddr base n + 1#32

/-- The byte address `a` is one of the bytes of the row of `len` pixels at `base`. -/
def inRow (base : Word) (len : Nat) (a : Word) : Prop := ∃ n, n < len ∧ inPixel base n a

/-- The input row and the output row of the engine have no byte in common (R76, U5). -/
def Engine.RowsDisjoint (E : Engine) : Prop := ∀ a, ¬ (inRow E.src E.rowLen a ∧ inRow E.dst E.rowLen a)

/-- The platform backs every byte of both rows (R68). -/
def Engine.RowsAdmitted (C : Config) (E : Engine) : Prop :=
  ∀ a, inRow E.src E.rowLen a ∨ inRow E.dst E.rowLen a → C.ADMITS a = true

/-- `in[n]`: the input pixel as it stands in memory (R165). -/
def inputPixel (m : Memory) (E : Engine) (n : Nat) : Pixel := Memory.read16 m (pixelAddr E.src n)

/-- `ph[n]` (R165). -/
def rowPhase (C : Config) (ph0 n : Nat) : Nat := (ph0 + n * C.STEP) % C.P

/-- What input pixel `n` contributes to column `m`: tap `m - n + LEFT` of its kernel, nothing where there is no such tap
(R165, R166). -/
def contribution (C : Config) (b : Bank) (px : Nat → Pixel) (ph0 m n : Nat) : Yiq :=
  if n ≤ m + C.LEFT ∧ m + C.LEFT - n < C.T then
    b.tap C (C.CLASSIFY (C.ADJ (px n))) (rowPhase C ph0 n) (m + C.LEFT - n)
  else Yiq.zero

/-- What column `m` of a row of `len` pixels accumulates (R165). -/
def columnSum (C : Config) (b : Bank) (px : Nat → Pixel) (ph0 len m : Nat) : Yiq :=
  Yiq.sum ((List.range len).map (contribution C b px ph0 m))

/-- `out[m]` (R165). -/
def outputPixel (C : Config) (b : Bank) (px : Nat → Pixel) (ph0 len m : Nat) : Pixel :=
  C.final (columnSum C b px ph0 len m)

/-- The number of engine steps a BLIT takes after its acceptance (R168, R290). -/
def blitSteps (C : Config) (E : Engine) : Nat := E.rowLen + C.LEFT + 1

/-! ### The window -/

/-- `a` is a sum of at most one tap of bank `b` from each of the tap positions `lo` to T-1 (R11, R172). -/
def partialSum (C : Config) (b : Bank) (lo : Nat) (a : Yiq) : Prop :=
  ∃ (pick : Nat → Bool) (cls ph : Nat → Nat), (∀ t, cls t < C.NCLASS) ∧ (∀ t, ph t < C.P) ∧
    a = Yiq.sum ((List.range C.T).map fun t =>
      if lo ≤ t ∧ pick t = true then b.tap C (cls t) (ph t) t else Yiq.zero)

/-- Slot `j` of the window holds a sum of at most one tap of the latched bank from each of the positions `j + lo` to T-1:
`lo` is 1 between two steps, and 0 inside a pixel step once the kernel is added (R47, R172, R174). -/
def Engine.SlotsOk (C : Config) (s : State) (lo : Nat) (E : Engine) : Prop :=
  ∀ j a, E.w[j]? = some a → partialSum C (s.bank E.lbank) (j + lo) a

/-- What the window of every running BLIT holds between two steps. -/
def State.WindowsOk (C : Config) (s : State) : Prop :=
  ∀ (e : Nat) (E : Engine), s.engines[e]? = some E → E.busy = true → E.lop = .blit → E.SlotsOk C s 1

/-! ### Turns and runs -/

/-- The engine whose CMD is written is `E`, and it is idle. -/
abbrev IdleAtPort (s : State) (E : Engine) : Prop := s.engines[s.port]? = some E ∧ E.busy = false

/-- It is the turn of engine `e`, which is in state `E`. -/
abbrev EngineTurnOf (s : State) (e : Nat) (E : Engine) (rest : List Agent) : Prop :=
  s.sched = .engine e :: rest ∧ s.engines[e]? = some E

/-- It is the turn of host agent `h`, which holds no write and has `op` to do next, then `ops`. -/
abbrev HostTurnOf (s : State) (h : Nat) (H : HostAgent) (op : HostOp) (ops : List HostOp) (rest : List Agent) : Prop :=
  s.sched = .host h :: rest ∧ s.hosts[h]? = some H ∧ H.held = none ∧ H.ops = op :: ops

/-- A running SETUP. -/
abbrev Engine.RunsSetup (E : Engine) : Prop := E.busy = true ∧ E.lop = .setup

/-- A running BLIT. -/
abbrev Engine.RunsBlit (E : Engine) : Prop := E.busy = true ∧ E.lop = .blit

/-- `k` steps of the machine of configuration `C`. -/
abbrev runIn (C : Config) (k : Nat) (s : State) : Host.Outcome State Fault Refusal := (coreIn C).run k s

/-- In state `s` engine `e` has just accepted a BLIT with the operands of `E`, and `t` is the state after its last step,
in a run in which the host keeps its duties (R75: no step of another agent changes a byte of either row) and no reset
comes. The rows do not overlap (U5, R76) and are backed (R68); `pre` are the turns before the engine's last one. -/
structure BlitRun (C : Config) (s : State) (e : Nat) (E : Engine) (pre : List Agent) (t : State) : Prop where
  accepted : s.engines[e]? = some (E.startBlit C s.active)
  phase_lt : E.phase < C.P
  mem : Memory.wf s.mem = true
  disjoint : E.RowsDisjoint
  admitted : E.RowsAdmitted C
  turns : ∃ rest, s.sched = pre ++ .engine e :: rest
  noReset : Agent.reset ∉ pre
  count : pre.count (.engine e) = E.rowLen + C.LEFT
  duties : ∀ k u v, k < pre.length → runIn C k s = .next u → stepIn C u = .next v → (∀ l, u.sched ≠ .engine e :: l) →
    ∀ a : Word, inRow E.src E.rowLen a ∨ inRow E.dst E.rowLen a → Memory.read v.mem a.toNat = Memory.read u.mem a.toNat
  ends : runIn C (pre.length + 1) s = .next t

/-- The state after `k` turns of engine `e` with no other agent stepping. -/
def engineTurns (C : Config) (e k : Nat) (s : State) : State := (engineStep C e)^[k] s

end Sys2Proof.Machine
end

