-- ==== Sys2Proof/Certificates/Slice0/Obligations.lean ====
section
/-!
DEFINITION. The statements for the provers. REF is `Config.ref`; a statement over a configuration `C` is about the
machine `coreIn C`, of which `Sys2Proof.core` is the instance at REF (`Obligations.StepIsTheReferenceInstance`).
-/

open Sys2Proof Sys2Proof.Machine

/-! ### Encoding -/

/-- Decoding the word of a well-formed command gives the command back (R91, R93). -/
def Obligations.DecodeInvertsEncode : Prop :=
  ∀ i : Instr, i.wellFormed = true → decode (encode i) = .ok i

/-- Every word that decodes is the word of the well-formed command it decodes to (R91, R93). -/
def Obligations.EncodeInvertsDecode : Prop :=
  ∀ (w : Word) (i : Instr), decode w = .ok i → i.wellFormed = true ∧ encode i = w

/-- The illegal words: OP 0x0, OP 0x4 to 0xF, and OP 0x1 or 0x2 with any of bits 27:0 set (R95). -/
def Obligations.IllegalWordsAreThoseOfNoRow : Prop :=
  ∀ w : Word, (∃ r, decode w = .error r) ↔
    (bitField w 28 4 = 0 ∨ 4 ≤ bitField w 28 4 ∨
      ((bitField w 28 4 = 1 ∨ bitField w 28 4 = 2) ∧ bitField w 0 28 ≠ 0))

/-- The encoding examples of R102. -/
def Obligations.EncodingExamplesDecode : Prop :=
  decode 0x10000000#32 = .ok .setup ∧ encode .setup = 0x10000000#32 ∧
  decode 0x20000000#32 = .ok .blit ∧ encode .blit = 0x20000000#32 ∧
  decode 0x3401F800#32 = .ok (.lookup 0xF800 1 4) ∧ encode (.lookup 0xF800 1 4) = 0x3401F800#32 ∧
  decode 0x3200FFFF#32 = .ok (.lookup 0xFFFF 0 2) ∧ encode (.lookup 0xFFFF 0 2) = 0x3200FFFF#32 ∧
  decode 0x20000001#32 = .error (.reservedBitsSet 2) ∧ decode 0x00000000#32 = .error (.unusedOpcode 0) ∧
  decode 0x3F00FFFF#32 = .ok (.lookup 0xFFFF 0 15) ∧ decode 0x3003FFFF#32 = .ok (.lookup 0xFFFF 3 0) ∧
  ∀ s E, IdleAtPort s E →
    exec (.lookup 0xFFFF 0 15) s = .next (s.setEngine s.port { E with err := .illegalCommand, sIll := true }) ∧
    exec (.lookup 0xFFFF 3 0) s = .next (s.setEngine s.port { E with err := .illegalCommand, sIll := true })

/-! ### The step and the acceptance of a command -/

/-- The machine behind the host's interface is the machine of the reference configuration. -/
def Obligations.StepIsTheReferenceInstance : Prop :=
  (∀ i s, exec i s = execIn Config.ref i s) ∧ (∀ s, step s = stepIn Config.ref s) ∧
  State.reset = State.resetOf Config.ref

/-- A step in which a host agent writes the word of a command to CMD of an idle engine runs that command on that engine
(R29, R94): the agent's operation is done and its turn is over. -/
def Obligations.StepRunsTheCommandWritten : Prop :=
  ∀ s h H e E w i ops rest, HostTurnOf s h H (.wr (regOff e .cmd) w) ops rest → e < 16 →
    s.engines[e]? = some E → E.busy = false → decode w = .ok i →
    step s = exec i { s with sched := rest ++ [.host h], hosts := s.hosts.set h { H with ops := ops }, port := e }

/-- A step in which a host agent writes a word of no command to CMD of an idle engine raises IllegalCommand on that
engine: ERR 4, S_ILL 1, nothing else but the agent's operation done (R94, R95, R245). -/
def Obligations.UnmatchedWordRaisesIllegalCommand : Prop :=
  ∀ s h H e E w r ops rest, HostTurnOf s h H (.wr (regOff e .cmd) w) ops rest → e < 16 →
    s.engines[e]? = some E → E.busy = false → decode w = .error r →
    step s = .next { s with
      sched := rest ++ [.host h]
      hosts := s.hosts.set h { H with ops := ops }
      engines := s.engines.set e { E with err := .illegalCommand, sIll := true } }

/-- A write to a register of a busy engine is held: the first attempt is recorded and nothing else happens, and while the
engine is busy the agent does not proceed (R41; the reserved offset 0x3C is excepted, log 14). -/
def Obligations.WriteToABusyEngineIsHeld : Prop :=
  ∀ C s h H off v E rest, s.sched = .host h :: rest → s.hosts[h]? = some H → s.engines[offEngine off]? = some E →
    E.busy = true → offReg off ≤ 0x48 → offReg off ≠ 0x3C → off.toNat % 4 = 0 →
    (∀ ops, H.held = none → H.ops = .wr off v :: ops →
      stepIn C s = .next { s with
        sched := rest ++ [.host h], hosts := s.hosts.set h { H with ops := ops, held := some (off, v) } }) ∧
    (H.held = some (off, v) → stepIn C s = .next { s with sched := rest ++ [.host h] })

/-- A held write takes place, in its agent's turn, once the engine is idle, exactly as if the agent made it then (R41). -/
def Obligations.HeldWriteLandsOnceIdle : Prop :=
  ∀ C s h H off v E rest, s.sched = .host h :: rest → s.hosts[h]? = some H → s.engines[offEngine off]? = some E →
    E.busy = false → off.toNat % 4 = 0 → H.held = some (off, v) →
    stepIn C s = stepIn C { s with hosts := s.hosts.set h { H with held := none, ops := .wr off v :: H.ops } }

/-- A register write to an idle engine, other than to CMD, stores into that register of that engine and does nothing else
(R28, R41, R66). -/
def Obligations.RegisterWriteStoresInItsEngineOnly : Prop :=
  ∀ C s h H e E g v ops rest, HostTurnOf s h H (.wr (regOff e g) v) ops rest → e < 16 → g ≠ .cmd →
    s.engines[e]? = some E → E.busy = false →
    stepIn C s = .next { s with
      sched := rest ++ [.host h]
      hosts := s.hosts.set h { H with ops := ops }
      engines := s.engines.set e (E.writeReg C g v) }

/-- What each register reads after a write to it (R29 to R39), and that every other register reads as before, but for the
sticky bits of STATUS, which no other write changes either. -/
def Obligations.RegistersReadBackWhatIsStored : Prop :=
  ∀ C tv E v,
    readReg C tv (E.writeReg C .src v) .src = BitVec.ofNat 32 (2 * (v.toNat / 2)) ∧
    readReg C tv (E.writeReg C .dst v) .dst = BitVec.ofNat 32 (2 * (v.toNat / 2)) ∧
    readReg C tv (E.writeReg C .srcLen v) .srcLen = BitVec.ofNat 32 (v.toNat % 2 ^ 16) ∧
    readReg C tv (E.writeReg C .dstLen v) .dstLen = BitVec.ofNat 32 (v.toNat % 2 ^ 16) ∧
    readReg C tv (E.writeReg C .phase v) .phase = BitVec.ofNat 32 (v.toNat % C.P) ∧
    (∀ g ∈ [Reg.pFmt, .pHue, .pSat, .pCon, .pBri, .pSharp, .pBleed], readReg C tv (E.writeReg C g v) g = v) ∧
    (∀ g ∈ [Reg.cap, .kresY, .kresI, .kresQ], E.writeReg C g v = E) ∧
    (∀ g, readReg C tv (E.writeReg C g v) .cmd = 0#32) ∧
    (∀ g g', g ≠ g' → readReg C tv (E.writeReg C g v) g' = readReg C tv E g')

/-- The fields of STATUS (R30): BUSY, TVALID, ERR with the codes of R241, the sticky bits; reserved bits read 0. -/
def Obligations.StatusReadsItsFields : Prop :=
  ∀ C tv E, bitField (readReg C tv E .status) 0 1 = E.busy.toNat ∧
    bitField (readReg C tv E .status) 1 1 = tv.toNat ∧ bitField (readReg C tv E .status) 2 2 = 0 ∧
    bitField (readReg C tv E .status) 4 4 =
      (match E.err with
        | .none => 0 | .configuration => 1 | .uninitializedTable => 2 | .lengthMismatch => 3 | .illegalCommand => 4) ∧
    bitField (readReg C tv E .status) 8 1 = E.sCfg.toNat ∧ bitField (readReg C tv E .status) 9 1 = E.sUninit.toNat ∧
    bitField (readReg C tv E .status) 10 1 = E.sLen.toNat ∧ bitField (readReg C tv E .status) 11 1 = E.sIll.toNat ∧
    bitField (readReg C tv E .status) 12 20 = 0

/-- A write of `v` to STATUS clears each of bits 11:8 whose bit in `v` is 1 and changes nothing else (R30). -/
def Obligations.StatusWriteClearsOnlyWrittenOnes : Prop :=
  ∀ C tv E v, readReg C tv (E.writeReg C .status v) .status = readReg C tv E .status &&& ~~~(v &&& 0xF00#32) ∧
    ∃ a b c d, E.writeReg C .status v = { E with sCfg := a, sUninit := b, sLen := c, sIll := d }

/-- A register read is never held, returns the register, and changes nothing but the reading agent (R41). -/
def Obligations.RegisterReadHasNoSideEffect : Prop :=
  ∀ C s h H e E g ops rest, HostTurnOf s h H (.rd (regOff e g)) ops rest → e < 16 → s.engines[e]? = some E →
    stepIn C s = .next { s with
      sched := rest ++ [.host h]
      hosts := s.hosts.set h { H with ops := ops, seen := H.seen ++ [readReg C s.tvalid E g] } }

/-- At a reserved offset, 0x3C or 0x4C to 0xFC of a block or any offset of the block of an engine that does not exist, a
read returns 0 and a write is ignored and not held (R40). That a write to 0x3C of a busy engine is not held is the model's
reading of R40 over R41, whose range of held offsets contains it (log 14). -/
def Obligations.ReservedOffsetsReadZeroIgnoreWrites : Prop :=
  ∀ C s h H off v ops rest, off.toNat % 4 = 0 →
    (s.engines[offEngine off]? = none ∨ offReg off = 0x3C ∨ 0x4C ≤ offReg off) →
    (HostTurnOf s h H (.rd off) ops rest →
      stepIn C s = .next { s with
        sched := rest ++ [.host h], hosts := s.hosts.set h { H with ops := ops, seen := H.seen ++ [0#32] } }) ∧
    (HostTurnOf s h H (.wr off v) ops rest →
      stepIn C s = .next { s with sched := rest ++ [.host h], hosts := s.hosts.set h { H with ops := ops } })

/-- CAP holds P, T, LEFT and STEP, ignores writes, and reads 0x01020503 for REF (R38). -/
def Obligations.CapReadsTheBuildParameters : Prop :=
  (∀ C tv E v, C.ScalarsOk → Reg.cap.offset = 0x1C ∧ E.writeReg C .cap v = E ∧
    bitField (readReg C tv E .cap) 0 8 = C.P ∧ bitField (readReg C tv E .cap) 8 8 = C.T ∧
    bitField (readReg C tv E .cap) 16 8 = C.LEFT ∧ bitField (readReg C tv E .cap) 24 8 = C.STEP) ∧
  ∀ tv E, readReg Config.ref tv E .cap = 0x01020503#32

/-- A register access that is not aligned is refused (R66, U7). -/
def Obligations.UnalignedRegisterAccessIsRefused : Prop :=
  ∀ C s h H off v ops rest, off.toNat % 4 ≠ 0 →
    HostTurnOf s h H (.rd off) ops rest ∨ HostTurnOf s h H (.wr off v) ops rest →
    stepIn C s = .refused .unalignedRegisterAccess

/-- WAIT reads STATUS of its engine in each of its turns until BUSY reads 0; the last value is its result (R101). -/
def Obligations.WaitPollsUntilIdle : Prop :=
  ∀ C s h H e E ops rest, HostTurnOf s h H (.wait e) ops rest → s.engines[e.toNat]? = some E →
    stepIn C s = .next { s with
      sched := rest ++ [.host h]
      hosts := if E.busy then s.hosts
        else s.hosts.set h { H with ops := ops, seen := H.seen ++ [readReg C s.tvalid E .status] } }

/-! ### SETUP -/

/-- SETUP is accepted on an idle engine when `P_FMT` claims the built widths and VALID holds (R122): ERR 0, LOP SETUP,
BUSY 1, and nothing else; in every configuration, and for the machine in REF. -/
def Obligations.SetupIsAccepted : Prop :=
  ∀ s E, IdleAtPort s E → bitField E.params.fmt 0 8 = 16 → bitField E.params.fmt 8 8 = 16 →
    bitField E.params.fmt 16 16 = 0 →
    (∀ C : Config, C.VALID E.params = true →
      execIn C .setup s = .next (s.setEngine s.port { E with err := .none, lop := .setup, busy := true })) ∧
    (Config.ref.VALID E.params = true →
      exec .setup s = .next (s.setEngine s.port { E with err := .none, lop := .setup, busy := true }))

/-- SETUP with wrong claimed widths or unsupported parameters changes nothing but ERR and S_CFG (R123, R124, R125); in
every configuration, and for the machine in REF. -/
def Obligations.SetupOutOfRangeRaisesConfigurationError : Prop :=
  ∀ s E, IdleAtPort s E →
    (∀ C : Config, (bitField E.params.fmt 0 8 ≠ 16 ∨ bitField E.params.fmt 8 8 ≠ 16 ∨
        bitField E.params.fmt 16 16 ≠ 0 ∨ C.VALID E.params = false) →
      execIn C .setup s = .next (s.setEngine s.port { E with err := .configuration, sCfg := true })) ∧
    ((bitField E.params.fmt 0 8 ≠ 16 ∨ bitField E.params.fmt 8 8 ≠ 16 ∨ bitField E.params.fmt 16 16 ≠ 0 ∨
        Config.ref.VALID E.params = false) →
      exec .setup s = .next (s.setEngine s.port { E with err := .configuration, sCfg := true }))

/-- REF's VALID is the range table of R204, read bit by bit: `P_BRI` is in 0x00000000 .. 0x0000007F or
0xFFFFFF80 .. 0xFFFFFFFF (R206). -/
def Obligations.RefValidIsTheRangeTable : Prop :=
  ∀ q : Params, Config.ref.VALID q = true ↔
    (q.fmt = 0x00001010#32 ∧ q.hue.toNat ≤ 11 ∧ q.sat.toNat ≤ 512 ∧ q.con.toNat ≤ 512 ∧
      (q.bri.toNat ≤ 0x7F ∨ 0xFFFFFF80 ≤ q.bri.toNat) ∧ q.sharp.toNat ≤ 256 ∧ q.bleed.toNat ≤ 256)

/-- The completion step of SETUP, when no running BLIT reads the shadow bank (R134): every tap of the bank that becomes
active is that of `GEN(params)`, the other bank keeps its contents, TVALID is 1, BUSY is 0, and nothing else changes. -/
def Obligations.SetupCompletionPublishesTheTable : Prop :=
  ∀ C s e (E : Engine) rest, EngineTurnOf s e E rest → E.RunsSetup →
    (∀ (e' : Nat) (F : Engine), s.engines[e']? = some F → F.RunsBlit → F.lbank = s.active) →
    ∃ t, stepIn C s = .next t ∧ t.active = (!s.active) ∧ t.tvalid = true ∧
      (∀ c p k, t.tap C t.active c p k = C.BUILD_KERNEL (C.DECODE (C.REP c) E.params) p E.params k) ∧
      t.bank s.active = s.bank s.active ∧ t.engines = s.engines.set e { E with busy := false } ∧
      t.mem = s.mem ∧ t.hosts = s.hosts ∧ t.port = s.port ∧ t.resets = s.resets ∧ t.sched = rest ++ [.engine e]

/-- While a running BLIT of any engine reads the shadow bank, SETUP's completion step is not enabled (R134). -/
def Obligations.SetupWaitsForTheShadowBank : Prop :=
  ∀ C s (e : Nat) (E : Engine) rest (e' : Nat) (F : Engine), EngineTurnOf s e E rest → E.RunsSetup → s.engines[e']? = some F → F.RunsBlit →
    F.lbank = (!s.active) → stepIn C s = .next { s with sched := rest ++ [.engine e] }

/-! ### LOOKUP -/

/-- LOOKUP on an idle engine with operands in range and a published table puts the tap of the active bank into the
result registers, each as `trunc_32`, and changes nothing but these and ERR (R152); in every configuration, and for the
machine in REF. -/
def Obligations.LookupReadsOneTapOfTheActiveBank : Prop :=
  ∀ s E cls ph tap, IdleAtPort s E → s.tvalid = true →
    (∀ C : Config, cls < C.NCLASS → ph < C.P → tap < C.T →
      ∃ F, execIn C (.lookup cls ph tap) s = .next (s.setEngine s.port F) ∧
        F = { E with kresY := F.kresY, kresI := F.kresI, kresQ := F.kresQ, err := .none } ∧
        (F.kresY.toNat : Int) = (s.tap C s.active cls ph tap).y % 2 ^ 32 ∧
        (F.kresI.toNat : Int) = (s.tap C s.active cls ph tap).i % 2 ^ 32 ∧
        (F.kresQ.toNat : Int) = (s.tap C s.active cls ph tap).q % 2 ^ 32) ∧
    (cls < 65536 → ph < 3 → tap < 5 →
      ∃ F, exec (.lookup cls ph tap) s = .next (s.setEngine s.port F) ∧
        F = { E with kresY := F.kresY, kresI := F.kresI, kresQ := F.kresQ, err := .none } ∧
        (F.kresY.toNat : Int) = (s.tap Config.ref s.active cls ph tap).y % 2 ^ 32 ∧
        (F.kresI.toNat : Int) = (s.tap Config.ref s.active cls ph tap).i % 2 ^ 32 ∧
        (F.kresQ.toNat : Int) = (s.tap Config.ref s.active cls ph tap).q % 2 ^ 32)

/-- LOOKUP with an operand out of range raises IllegalCommand, with or without a table, and leaves the result registers
(R153); in every configuration, and for the machine in REF. -/
def Obligations.LookupOutOfRangeRaisesIllegalCommand : Prop :=
  ∀ s E cls ph tap, IdleAtPort s E →
    (∀ C : Config, (C.NCLASS ≤ cls ∨ C.P ≤ ph ∨ C.T ≤ tap) →
      execIn C (.lookup cls ph tap) s = .next (s.setEngine s.port { E with err := .illegalCommand, sIll := true })) ∧
    ((65536 ≤ cls ∨ 3 ≤ ph ∨ 5 ≤ tap) →
      exec (.lookup cls ph tap) s = .next (s.setEngine s.port { E with err := .illegalCommand, sIll := true }))

/-- LOOKUP in range without a table raises UninitializedTable and leaves the result registers (R154); in every
configuration, and for the machine in REF. -/
def Obligations.LookupWithoutTableRaisesUninitializedTable : Prop :=
  ∀ s E cls ph tap, IdleAtPort s E → s.tvalid = false →
    (∀ C : Config, cls < C.NCLASS → ph < C.P → tap < C.T →
      execIn C (.lookup cls ph tap) s =
        .next (s.setEngine s.port { E with err := .uninitializedTable, sUninit := true })) ∧
    (cls < 65536 → ph < 3 → tap < 5 →
      exec (.lookup cls ph tap) s = .next (s.setEngine s.port { E with err := .uninitializedTable, sUninit := true }))

/-- The worked example of R157, from the NEUTRAL table. -/
def Obligations.LookupWorkedExample : Prop :=
  ∀ s E, IdleAtPort s E → s.tvalid = true → s.bank s.active = .image Config.ref.NEUTRAL →
    decode 0x3401F800#32 = .ok (.lookup 0xF800 1 4) ∧
    exec (.lookup 0xF800 1 4) s =
      .next (s.setEngine s.port { E with kresY := 0x0087CFA8#32, kresI := 0#32, kresQ := 0#32, err := .none }) ∧
    decode 0x3400F800#32 = .ok (.lookup 0xF800 0 4) ∧
    exec (.lookup 0xF800 0 4) s =
      .next (s.setEngine s.port { E with kresY := 0xFF1BE500#32, kresI := 0#32, kresQ := 0#32, err := .none })

/-! ### BLIT: acceptance -/

/-- BLIT is accepted on an idle engine with a published table and equal lengths (R161): the hidden state is loaded, ERR
is 0, BUSY is 1, and nothing else changes; in every configuration, and for the machine in REF. -/
def Obligations.BlitIsAccepted : Prop :=
  ∀ s E, IdleAtPort s E → s.tvalid = true → E.srcLen = E.dstLen →
    (∀ C : Config, execIn C .blit s = .next (s.setEngine s.port
      { E with
        err := .none, lop := .blit, lbank := s.active, lph := E.phase, col := 0, wb := -(C.LEFT : Int)
        w := List.replicate C.T ⟨0, 0, 0⟩, busy := true })) ∧
    exec .blit s = .next (s.setEngine s.port
      { E with
        err := .none, lop := .blit, lbank := s.active, lph := E.phase, col := 0, wb := -2
        w := [⟨0, 0, 0⟩, ⟨0, 0, 0⟩, ⟨0, 0, 0⟩, ⟨0, 0, 0⟩, ⟨0, 0, 0⟩], busy := true })

/-- BLIT before any SETUP has completed raises UninitializedTable and changes nothing else (R162); in every configuration,
and for the machine in REF. -/
def Obligations.BlitWithoutTableRaisesUninitializedTable : Prop :=
  ∀ s E, IdleAtPort s E → s.tvalid = false →
    (∀ C : Config, execIn C .blit s =
      .next (s.setEngine s.port { E with err := .uninitializedTable, sUninit := true })) ∧
    exec .blit s = .next (s.setEngine s.port { E with err := .uninitializedTable, sUninit := true })

/-- BLIT with unequal lengths and a published table raises LengthMismatch and changes nothing else (R163); in every
configuration, and for the machine in REF. -/
def Obligations.BlitOfUnequalLengthsRaisesLengthMismatch : Prop :=
  ∀ s E, IdleAtPort s E → s.tvalid = true → E.srcLen ≠ E.dstLen →
    (∀ C : Config, execIn C .blit s =
      .next (s.setEngine s.port { E with err := .lengthMismatch, sLen := true })) ∧
    exec .blit s = .next (s.setEngine s.port { E with err := .lengthMismatch, sLen := true })

/-! ### All commands -/

/-- What no command changes when it is accepted: pixel memory, the table and its bits, the agents outside, every other
engine, and the operand and parameter registers of its own engine; no sticky bit is cleared. LOOKUP alone writes the
result registers; SETUP leaves the hidden state of BLIT, LOOKUP all hidden state and BUSY (R49, R152, R122, R161). -/
def Obligations.AcceptanceFrame : Prop :=
  ∀ i s t E, exec i s = .next t ∨ (∃ C, execIn C i s = .next t) → s.engines[s.port]? = some E →
    t.mem = s.mem ∧ t.kt0 = s.kt0 ∧ t.kt1 = s.kt1 ∧ t.active = s.active ∧ t.tvalid = s.tvalid ∧ t.port = s.port ∧
    t.hosts = s.hosts ∧ t.sched = s.sched ∧ t.resets = s.resets ∧
    (∀ e, e ≠ s.port → t.engines[e]? = s.engines[e]?) ∧
    ∃ F, t.engines[s.port]? = some F ∧ F.src = E.src ∧ F.dst = E.dst ∧ F.srcLen = E.srcLen ∧ F.dstLen = E.dstLen ∧
      F.phase = E.phase ∧ F.params = E.params ∧
      (E.sCfg = true → F.sCfg = true) ∧ (E.sUninit = true → F.sUninit = true) ∧
      (E.sLen = true → F.sLen = true) ∧ (E.sIll = true → F.sIll = true) ∧
      ((∀ cls ph tap, i ≠ .lookup cls ph tap) → F.kresY = E.kresY ∧ F.kresI = E.kresI ∧ F.kresQ = E.kresQ) ∧
      (i ≠ .blit → F.lbank = E.lbank ∧ F.lph = E.lph ∧ F.col = E.col ∧ F.wb = E.wb ∧ F.w = E.w) ∧
      (i ≠ .blit → i ≠ .setup → F.busy = E.busy ∧ F.lop = E.lop)

/-- An error has exactly this effect, for every word written to CMD of an idle engine: ERR is its code, its sticky bit is
set, BUSY stays 0 and nothing else changes (R246); the port is the model's record of which CMD was written (log 4). -/
def Obligations.AnErrorChangesOnlyErrAndItsStickyBit : Prop :=
  ∀ C s e E w t F, s.engines[e]? = some E → E.busy = false → acceptCommand (execIn C) e w s = .next t →
    t.engines[e]? = some F → F.err ≠ .none →
    t = { s with port := t.port, engines := s.engines.set e F } ∧
    F = { E with
          err := F.err
          sCfg := E.sCfg || decide (F.err = .configuration)
          sUninit := E.sUninit || decide (F.err = .uninitializedTable)
          sLen := E.sLen || decide (F.err = .lengthMismatch)
          sIll := E.sIll || decide (F.err = .illegalCommand) }

/-- A command presented to a busy engine, or to one that does not exist, has no effect (R29, R40; the model's choice of
what `exec` answers there, log 4). -/
def Obligations.CommandWithoutAnIdleEngineHasNoEffect : Prop :=
  ∀ i s, (∀ E, s.engines[s.port]? = some E → E.busy = true) →
    exec i s = .next s ∧ ∀ C, execIn C i s = .next s

/-! ### BLIT: the steps -/

/-- The pixel step (R169 to R174): read, adjust, look up in the latched bank at the current phase, accumulate, advance the
phase, retire slot 0, count the column. -/
def Obligations.PixelStepDoesTheFiveSubActions : Prop :=
  ∀ C s e E rest k0 ks, EngineTurnOf s e E rest → E.RunsBlit → E.col < E.srcLen.toNat →
    admitted16 C (E.src + BitVec.ofNat 32 (2 * E.col)) = true →
    (0 ≤ E.wb ∧ E.wb < E.srcLen.toNat → admitted16 C (E.dst + BitVec.ofNat 32 (2 * E.wb.toNat)) = true) →
    List.zipWith Yiq.add E.w ((List.range C.T).map (s.tap C E.lbank
      (C.CLASSIFY (C.ADJ (Memory.read16 s.mem (E.src + BitVec.ofNat 32 (2 * E.col))))) E.lph)) = k0 :: ks →
    stepIn C s = .next { s with
      sched := rest ++ [.engine e]
      mem := if 0 ≤ E.wb ∧ E.wb < E.srcLen.toNat then
          Memory.write16 s.mem (E.dst + BitVec.ofNat 32 (2 * E.wb.toNat)) (C.final k0)
        else s.mem
      engines := s.engines.set e
        { E with w := ks ++ [⟨0, 0, 0⟩], lph := (E.lph + C.STEP) % C.P, wb := E.wb + 1, col := E.col + 1 } }

/-- The flush step (R175): retire slot 0 and nothing else. -/
def Obligations.FlushStepRetiresOneSlot : Prop :=
  ∀ C s e E rest k0 ks, EngineTurnOf s e E rest → E.RunsBlit → E.col = E.srcLen.toNat → E.wb < E.srcLen.toNat →
    (0 ≤ E.wb → admitted16 C (E.dst + BitVec.ofNat 32 (2 * E.wb.toNat)) = true) → E.w = k0 :: ks →
    stepIn C s = .next { s with
      sched := rest ++ [.engine e]
      mem := if 0 ≤ E.wb then Memory.write16 s.mem (E.dst + BitVec.ofNat 32 (2 * E.wb.toNat)) (C.final k0) else s.mem
      engines := s.engines.set e { E with w := ks ++ [⟨0, 0, 0⟩], wb := E.wb + 1 } }

/-- The completion step (R176): PHASE takes the working phase, BUSY falls, nothing else. -/
def Obligations.BlitCompletionReturnsThePhase : Prop :=
  ∀ C s e E rest, EngineTurnOf s e E rest → E.RunsBlit → E.col = E.srcLen.toNat → (E.srcLen.toNat : Int) ≤ E.wb →
    stepIn C s = .next { s with
      sched := rest ++ [.engine e], engines := s.engines.set e { E with phase := E.lph, busy := false } }

/-- An engine whose next access the platform does not back is stuck: its turns change nothing, so it stays busy
(R68, R258). That a 2-byte access is backed when both of its bytes are is the model's reading (log 11). -/
def Obligations.UnbackedAccessLeavesTheEngineStuck : Prop :=
  ∀ C s e E rest, EngineTurnOf s e E rest → E.RunsBlit →
    ((E.col < E.srcLen.toNat ∧ admitted16 C (E.src + BitVec.ofNat 32 (2 * E.col)) = false) ∨
      (0 ≤ E.wb ∧ E.wb < E.srcLen.toNat ∧ admitted16 C (E.dst + BitVec.ofNat 32 (2 * E.wb.toNat)) = false)) →
    stepIn C s = .next { s with sched := rest ++ [.engine e] }

/-- What the turn of an engine leaves unchanged: every other engine, the agents outside, every byte of memory but those of
the column a running BLIT retires, the table unless a SETUP runs, and its own registers but PHASE and BUSY
(R49, R60, R69, R134, R169, R175, R176). -/
def Obligations.EngineStepFrame : Prop :=
  ∀ C s e E rest t, EngineTurnOf s e E rest → stepIn C s = .next t →
    (∀ e', e' ≠ e → t.engines[e']? = s.engines[e']?) ∧ t.hosts = s.hosts ∧ t.port = s.port ∧ t.resets = s.resets ∧
    (∀ a : Word, ¬ (E.RunsBlit ∧ 0 ≤ E.wb ∧ E.wb < E.srcLen.toNat ∧
        (a = E.dst + BitVec.ofNat 32 (2 * E.wb.toNat) ∨ a = E.dst + BitVec.ofNat 32 (2 * E.wb.toNat) + 1#32)) →
      Memory.read t.mem a.toNat = Memory.read s.mem a.toNat) ∧
    (¬ E.RunsSetup → t.kt0 = s.kt0 ∧ t.kt1 = s.kt1 ∧ t.active = s.active ∧ t.tvalid = s.tvalid) ∧
    ∃ F : Engine, t.engines[e]? = some F ∧ F.src = E.src ∧ F.dst = E.dst ∧ F.srcLen = E.srcLen ∧ F.dstLen = E.dstLen ∧
      F.params = E.params ∧ F.kresY = E.kresY ∧ F.kresI = E.kresI ∧ F.kresQ = E.kresQ ∧ F.err = E.err ∧
      F.sCfg = E.sCfg ∧ F.sUninit = E.sUninit ∧ F.sLen = E.sLen ∧ F.sIll = E.sIll ∧ F.lop = E.lop ∧
      F.lbank = E.lbank ∧ (F.busy = true → F = { E with lph := F.lph, col := F.col, wb := F.wb, w := F.w }) ∧
      (E.busy = false → F = E)

/-! ### BLIT: the row -/

/-- BLIT computes its closed form (R165). From acceptance, with rows that do not overlap and are backed, the engine's own
N + LEFT + 1 turns write `out[m]` to every column of the output row, leave every other byte, return the phase and leave
the engine idle with ERR 0. -/
def Obligations.BlitComputesTheClosedForm : Prop :=
  ∀ C, C.ScalarsOk → ∀ s E, IdleAtPort s E → s.tvalid = true → E.srcLen = E.dstLen → E.phase < C.P →
    Memory.wf s.mem = true → E.RowsDisjoint → E.RowsAdmitted C → s.sched = [.engine s.port] →
    ∃ u t F, execIn C .blit s = .next u ∧ runIn C (blitSteps C E) u = .next t ∧ t.engines[s.port]? = some F ∧
      (∀ m, m < E.rowLen → Memory.read16 t.mem (pixelAddr E.dst m) =
        outputPixel C (s.bank s.active) (inputPixel s.mem E) E.phase E.rowLen m) ∧
      (∀ a, ¬ inRow E.dst E.rowLen a → Memory.read t.mem a.toNat = Memory.read s.mem a.toNat) ∧
      F = { E with
            phase := (E.phase + E.rowLen * C.STEP) % C.P, err := .none
            lop := F.lop, lbank := F.lbank, lph := F.lph, col := F.col, wb := F.wb, w := F.w } ∧
      t = { s with mem := t.mem, engines := s.engines.set s.port F }

/-- The output row while the BLIT runs (U15, R276), and so what a reset that cuts it off leaves (R270): after any number
of the engine's turns the columns below WB hold their final values and every other byte is as it was. -/
def Obligations.RunningRowIsWrittenUpToTheWindowBase : Prop :=
  ∀ C, C.ScalarsOk → ∀ s E, IdleAtPort s E → s.tvalid = true → E.srcLen = E.dstLen → E.phase < C.P →
    Memory.wf s.mem = true → E.RowsDisjoint → E.RowsAdmitted C →
    ∀ k, k < blitSteps C E → ∃ u t F, execIn C .blit s = .next u ∧ t = engineTurns C s.port k u ∧
      t.engines[s.port]? = some F ∧ F.busy = true ∧ F.wb = (k : Int) - C.LEFT ∧ F.col = min k E.rowLen ∧
      (∀ m : Nat, (m : Int) < F.wb → Memory.read16 t.mem (pixelAddr E.dst m) =
        outputPixel C (s.bank s.active) (inputPixel s.mem E) E.phase E.rowLen m) ∧
      (∀ a, (∀ m : Nat, (m : Int) < F.wb → ¬ inPixel E.dst m a) →
        Memory.read t.mem a.toNat = Memory.read s.mem a.toNat)

/-- In every interleaving without a reset, a BLIT is busy until its N + LEFT + 1-st turn and ends in it, with PHASE
`(ph0 + N * STEP) mod P` whatever the pixels are (R168, R178, R290); a row of the cycle's length returns the phase passed
in, and so does any row whose `N * STEP` is a multiple of P (R179). That progress is counted in the engine's turns of the
schedule is the model's choice (log 23). -/
def Obligations.BlitEndsInEveryInterleaving : Prop :=
  ∀ C, C.ScalarsOk → ∀ s (e : Nat) (E : Engine) pre rest t, s.engines[e]? = some (E.startBlit C s.active) → E.phase < C.P →
    E.RowsAdmitted C → s.sched = pre ++ .engine e :: rest → Agent.reset ∉ pre →
    pre.count (.engine e) = E.rowLen + C.LEFT → runIn C (pre.length + 1) s = .next t →
    (∀ k u, k ≤ pre.length → runIn C k s = .next u → ∃ F, u.engines[e]? = some F ∧ F.busy = true ∧ F.phase = E.phase) ∧
    ∃ F, t.engines[e]? = some F ∧ F.busy = false ∧ F.phase = (E.phase + E.rowLen * C.STEP) % C.P ∧
      (E.rowLen = C.P → F.phase = E.phase) ∧ (C.P ∣ E.rowLen * C.STEP → F.phase = E.phase)

/-- BLIT computes its closed form in every interleaving (R165, R70). From acceptance, while the other agents keep the
host's duties (R75: none of their steps changes a byte of either row) and no reset comes, the engine's N + LEFT + 1-st turn
leaves `out[m]` in every column of the output row and `PHASE = (ph0 + N * STEP) mod P`, for rows that do not overlap (U5)
and are backed (R68). -/
def Obligations.BlitComputesTheClosedFormInEveryInterleaving : Prop :=
  ∀ C, C.ScalarsOk → ∀ s (e : Nat) (E : Engine) pre rest t, s.engines[e]? = some (E.startBlit C s.active) →
    E.phase < C.P → Memory.wf s.mem = true → E.RowsDisjoint → E.RowsAdmitted C →
    s.sched = pre ++ .engine e :: rest → Agent.reset ∉ pre → pre.count (.engine e) = E.rowLen + C.LEFT →
    (∀ k u v, k < pre.length → runIn C k s = .next u → stepIn C u = .next v → (∀ l, u.sched ≠ .engine e :: l) →
      ∀ a : Word, inRow E.src E.rowLen a ∨ inRow E.dst E.rowLen a →
        Memory.read v.mem a.toNat = Memory.read u.mem a.toNat) →
    runIn C (pre.length + 1) s = .next t →
    (∀ m, m < E.rowLen → Memory.read16 t.mem (pixelAddr E.dst m) =
      outputPixel C (s.bank s.active) (inputPixel s.mem E) E.phase E.rowLen m) ∧
    ∃ F, t.engines[e]? = some F ∧ F.busy = false ∧ F.phase = (E.phase + E.rowLen * C.STEP) % C.P

/-- Determinism (R180): two BLITs with identical input rows, equal tables and equal starting phases, on whatever engines,
addresses and other state, each in any interleaving in which the host keeps its duties (R75), give bit-identical output
rows and the same next phase. Equal tables means equal taps, whatever parameters the two tables were built from. -/
def Obligations.BlitOutputDependsOnlyOnRowTableAndPhase : Prop :=
  ∀ C, C.ScalarsOk → ∀ s s' (e e' : Nat) (E E' : Engine) pre pre' t t',
    BlitRun C s e E pre t → BlitRun C s' e' E' pre' t' →
    E.rowLen = E'.rowLen → E.phase = E'.phase →
    (∀ c p k, c < C.NCLASS → p < C.P → k < C.T → s.tap C s.active c p k = s'.tap C s'.active c p k) →
    (∀ n, n < E.rowLen → inputPixel s.mem E n = inputPixel s'.mem E' n) →
    (∀ m, m < E.rowLen → Memory.read16 t.mem (pixelAddr E.dst m) = Memory.read16 t'.mem (pixelAddr E'.dst m)) ∧
    ∃ F F', t.engines[e]? = some F ∧ t'.engines[e']? = some F' ∧ F.busy = false ∧ F'.busy = false ∧ F.phase = F'.phase

/-- An interior column of a flat row accumulates `S(c, ph[m])`, the flat-field sum of the class at the column's own phase,
and in an admissible configuration every interior column of every starting phase yields the same pixel `FLAT(c)`
(R181, R129). -/
def Obligations.InteriorColumnOfAFlatRow : Prop :=
  ∀ C, C.ScalarsOk → ∀ q px ph0 len m c, ph0 < C.P → (∀ n, n < len → C.CLASSIFY (C.ADJ (px n)) = c) →
    C.RIGHT ≤ m → m + C.LEFT < len →
    columnSum C (.image q) px ph0 len m = C.flatSum q c (rowPhase C ph0 m) ∧
    outputPixel C (.image q) px ph0 len m = C.final (C.flatSum q c (rowPhase C ph0 m)) ∧
    (C.FlatField → C.VALID q = true → ∀ a, a < C.P →
      outputPixel C (.image q) px ph0 len m = C.final (C.flatSum q c a))

/-- One pixel at the first position of a row whose other pixels have all-zero kernels: columns 0 to RIGHT get taps LEFT
to T-1 of its kernel, the taps left of the row are dropped, every further column is FINAL of zero (R183). -/
def Obligations.SinglePixelAtTheLeftBoundary : Prop :=
  ∀ C, C.ScalarsOk → ∀ b px ph0 len m, ph0 < C.P → m < len →
    (∀ n p t, 0 < n → n < len → p < C.P → t < C.T → b.tap C (C.CLASSIFY (C.ADJ (px n))) p t = Yiq.zero) →
    outputPixel C b px ph0 len m =
      if m ≤ C.RIGHT then C.final (b.tap C (C.CLASSIFY (C.ADJ (px 0))) ph0 (m + C.LEFT)) else C.final Yiq.zero

/-! ### The table and the whole machine -/

/-- No step of any agent but reset writes the bank a running BLIT has latched (R73). -/
def Obligations.LatchedBankIsNeverWritten : Prop :=
  ∀ C s t (e : Nat) (E : Engine), s.engines[e]? = some E → E.RunsBlit → (∀ rest, s.sched ≠ .reset :: rest) → stepIn C s = .next t →
    t.bank E.lbank = s.bank E.lbank

/-- A running command keeps its engine: no step but the engine's own and reset changes anything of a busy engine
(R41, R47, R247, R275). -/
def Obligations.BusyEngineIsNotDisturbed : Prop :=
  ∀ C s t (e : Nat) (E : Engine), s.engines[e]? = some E → E.busy = true → (∀ rest, s.sched ≠ .reset :: rest) →
    (∀ rest, s.sched ≠ .engine e :: rest) → stepIn C s = .next t → t.engines[e]? = some E

/-- BUSY falls only in the completion step of the engine's own command, or by reset (R51, R134, R176). -/
def Obligations.BusyFallsOnlyAtCompletion : Prop :=
  ∀ C s t (e : Nat) (E F : Engine), s.engines[e]? = some E → E.busy = true → stepIn C s = .next t → t.engines[e]? = some F →
    F.busy = false →
    (∃ rest, s.sched = .reset :: rest) ∨
    (∃ rest, s.sched = .engine e :: rest ∧
      ((E.lop = .setup ∧ refcnt s (!s.active) = 0) ∨ (E.lop = .blit ∧ E.srcLen.toNat ≤ E.col ∧ (E.srcLen.toNat : Int) ≤ E.wb)))

/-- TVALID rises only in the completion step of a SETUP and falls only by reset; ACTIVE and the banks change in no other
step (R27, R51, R73, R243). -/
def Obligations.TableChangesOnlyByPublishOrReset : Prop :=
  ∀ C s t, stepIn C s = .next t →
    (t.kt0 = s.kt0 ∧ t.kt1 = s.kt1 ∧ t.active = s.active ∧ t.tvalid = s.tvalid) ∨
    (∃ rest, s.sched = .reset :: rest) ∨
    (∃ e E rest, EngineTurnOf s e E rest ∧ E.RunsSetup ∧ t.tvalid = true ∧ t.active = (!s.active) ∧
      t.bank t.active = .image E.params ∧ t.bank s.active = s.bank s.active)

/-- A host's turn leaves the table, every engine but the one its operation addresses, every other host agent, and every
byte of memory but those it writes (R60, R70, R254). -/
def Obligations.HostStepFrame : Prop :=
  ∀ C s t h H op ops rest, HostTurnOf s h H op ops rest → stepIn C s = .next t →
    t.kt0 = s.kt0 ∧ t.kt1 = s.kt1 ∧ t.active = s.active ∧ t.tvalid = s.tvalid ∧ t.resets = s.resets ∧
    t.sched = rest ++ [.host h] ∧ (∀ h', h' ≠ h → t.hosts[h']? = s.hosts[h']?) ∧
    (∀ e, (∀ off v, op = .wr off v → offEngine off ≠ e) → t.engines[e]? = s.engines[e]?) ∧
    (∀ a : Word, (∀ b v, op = .mw b v → a ≠ b ∧ a ≠ b + 1#32) →
      Memory.read t.mem a.toNat = Memory.read s.mem a.toNat)

/-- The byte order of pixel memory (R62): the low byte of a pixel lies at its address, the high byte at the next address
modulo 2^32, for the read and the write that every agent uses; the host's 2-byte write (R100) is that write. -/
def Obligations.PixelMemoryIsLittleEndian : Prop :=
  (∀ (m : Memory) (a : Word),
    (Memory.read16 m a).toNat = (Memory.read m a.toNat).toNat + 256 * (Memory.read m (a + 1#32).toNat).toNat) ∧
  (∀ (m : Memory) (a : Word) (v : Pixel), Memory.wf m = true →
    (Memory.read (Memory.write16 m a v) a.toNat).toNat = v.toNat % 256 ∧
    (Memory.read (Memory.write16 m a v) (a + 1#32).toNat).toNat = v.toNat / 256 ∧
    Memory.wf (Memory.write16 m a v) = true) ∧
  ∀ C s h H a v ops rest, HostTurnOf s h H (.mw a v) ops rest → admitted16 C a = true →
    stepIn C s = .next { s with
      sched := rest ++ [.host h], hosts := s.hosts.set h { H with ops := ops }, mem := Memory.write16 s.mem a v }

/-! ### Reset and the invariant -/

/-- What the registers read right after reset, where the spec gives a value (R53, in the values of REF). -/
def Obligations.RegistersReadTheirResetValues : Prop :=
  State.reset.tvalid = false ∧ State.reset.active = false ∧ State.reset.engines.length = 1 ∧
  ∀ g : Reg, regRead Config.ref State.reset (regOff 0 g) =
    (match g with
      | .pFmt => 0x00001010#32
      | .pSat => 0x00000100#32
      | .pCon => 0x00000100#32
      | .cap => 0x01020503#32
      | _ => 0#32)

/-- Reset, enabled at any time (R270): no table is published, bank 0 is active, every engine is idle with its registers at
their reset values, held writes are gone, pixel memory is as it was. -/
def Obligations.ResetStepDiscardsEverythingButMemory : Prop :=
  ∀ C s rest, s.sched = .reset :: rest → ∃ t, stepIn C s = .next t ∧ t.mem = s.mem ∧ t.tvalid = false ∧
    t.active = false ∧ t.engines.length = C.NUM_ENGINES ∧
    (∀ (h : Nat) (H : HostAgent), s.hosts[h]? = some H → t.hosts[h]? = some { H with held := none }) ∧
    ∀ (e : Nat) (E : Engine), t.engines[e]? = some E → E.busy = false ∧ statusWord t.tvalid E = 0#32 ∧
      E.src = 0#32 ∧ E.dst = 0#32 ∧ E.srcLen = 0#16 ∧ E.dstLen = 0#16 ∧ E.phase = 0 ∧
      E.params = { C.NEUTRAL with fmt := 0x00001010#32 } ∧ E.kresY = 0#32 ∧ E.kresI = 0#32 ∧ E.kresQ = 0#32

/-- The state after reset meets the invariant, in every configuration. -/
def Obligations.ResetMeetsTheInvariant : Prop :=
  ∀ C, C.ScalarsOk → (State.resetOf C).Ok C

/-- Every step of the machine keeps the invariant `State.Ok`: the hardwired bits of SRC and DST, the range of PHASE, the
window and counters of a running BLIT (R168), the parameters of a running SETUP, the canonical form of memory, and the
published and latched banks holding whole tables. -/
def Obligations.EveryStepKeepsTheInvariant : Prop :=
  (∀ C, C.ScalarsOk → ∀ s t, s.Ok C → stepIn C s = .next t → t.Ok C) ∧
  ∀ s t, s.Ok Config.ref → step s = .next t → t.Ok Config.ref

/-! ### The reference configuration -/

/-- REF is an admissible configuration (R200): the bounds of R10, the no-overflow constraint of R11, energy conservation,
flat field, zero saturation and black in, black out. -/
def Obligations.RefIsAdmissible : Prop := Config.ref.Admissible

/-- REF's energy conservation is exact (R213): the taps of every kernel sum to 4096 times the sample. -/
def Obligations.RefEnergyIsExact : Prop :=
  ∀ q c p, p < 3 → ∃ s, s = Config.ref.DECODE (Config.ref.REP c) q ∧
    (Config.ref.kernelSum q c p).y = 4096 * s.y ∧ (Config.ref.kernelSum q c p).i = 4096 * s.i ∧
    (Config.ref.kernelSum q c p).q = 4096 * s.q

/-- REF's flat field is exact (R214): the phases whose taps meet on a column, what they sum to, and FINAL of it. -/
def Obligations.RefFlatFieldIsExact : Prop :=
  ∀ q c a, a < 3 →
    (List.range 5).map (Config.ref.flatPhase a) = [(a + 2) % 3, (a + 1) % 3, a, (a + 2) % 3, (a + 1) % 3] ∧
    ∃ s, s = Config.ref.DECODE (Config.ref.REP c) q ∧
      Config.ref.flatSum q c a = ⟨4096 * s.y, 4096 * s.i, 4096 * s.q⟩ ∧
      Config.ref.final (Config.ref.flatSum q c a) = Config.ref.final ⟨4096 * s.y, 4096 * s.i, 4096 * s.q⟩

/-- FINAL never wraps (R177): each channel of the output pixel is the channel value clamped to its range. -/
def Obligations.FinalClampsEveryChannel : Prop :=
  ∀ (C : Config) (a : Yiq), ((Pixel.red (C.final a) : Nat) : Int) = max 0 (min (C.CHANNELS a).r 31) ∧
    ((Pixel.green (C.final a) : Nat) : Int) = max 0 (min (C.CHANNELS a).g 63) ∧
    ((Pixel.blue (C.final a) : Nat) : Int) = max 0 (min (C.CHANNELS a).b 31)

/-- REF's accumulators never leave 32 bits (R11, R47, R218), under every step of every agent. Between two steps slot `j` of
the window of a running BLIT is a sum of at most one tap of its latched bank from each of the positions `j + 1` to T-1: so it
is after reset, and every step of the machine keeps it, in every configuration. Inside a pixel step, once the kernel is
added, slot `j` is such a sum from the positions `j` to T-1. In REF every slot, between the steps and inside a pixel step, is
therefore a signed 32-bit integer. This is the statement log 15 leans on. -/
def Obligations.RefWindowStaysIn32Bits : Prop :=
  (∀ C, C.ScalarsOk → (State.resetOf C).WindowsOk C ∧
    (∀ s t, s.Ok C → s.WindowsOk C → stepIn C s = .next t → t.WindowsOk C) ∧
    ∀ s (e : Nat) (E : Engine), s.Ok C → s.WindowsOk C → s.engines[e]? = some E → E.RunsBlit →
      (E.consumed C s).SlotsOk C s 0) ∧
  ∀ s (e : Nat) (E : Engine), s.Ok Config.ref → s.WindowsOk Config.ref → s.engines[e]? = some E → E.RunsBlit →
    (∀ a ∈ E.w, a.fits 32) ∧ ∀ a ∈ (E.consumed Config.ref s).w, a.fits 32
end

