-- ==== Sys2Proof/Laws/Decode.lean ====
section
/-!
SUPPORT. What the rows of the opcode map select, and what the decoder answers.
-/

namespace Sys2Proof.Laws

open Sys2Proof

theorem selects_iff (r : OpRow) (w : Word) : r.selects w = true ↔ w &&& r.mask = r.pattern := decide_eq_true_iff

theorem setupRow_selects_iff (w : Word) : setupRow.selects w = true ↔ w = 0x10000000#32 := by
  rw [selects_iff]
  show w &&& 0xFFFFFFFF#32 = 0x10000000#32 ↔ _
  rw [show (0xFFFFFFFF#32 : Word) = BitVec.allOnes 32 from rfl, BitVec.and_allOnes]

theorem blitRow_selects_iff (w : Word) : blitRow.selects w = true ↔ w = 0x20000000#32 := by
  rw [selects_iff]
  show w &&& 0xFFFFFFFF#32 = 0x20000000#32 ↔ _
  rw [show (0xFFFFFFFF#32 : Word) = BitVec.allOnes 32 from rfl, BitVec.and_allOnes]

/-- The LOOKUP row looks at OP alone. -/
theorem lookupRow_selects_iff (w : Word) : lookupRow.selects w = true ↔ w.toNat / 2 ^ 28 = 3 := by
  rw [selects_iff]
  show w &&& 0xF0000000#32 = 0x30000000#32 ↔ _
  have hm : w &&& 0xF0000000#32 = (w >>> 28) <<< 28 := by
    apply BitVec.eq_of_getLsbD_eq
    intro i hi
    have key : (0xF0000000#32 : Word).getLsbD i = decide (28 ≤ i) := by
      revert i; decide
    simp only [BitVec.getLsbD_and, BitVec.getLsbD_shiftLeft, BitVec.getLsbD_ushiftRight, key]
    by_cases h28 : 28 ≤ i
    · simp [h28, hi, show ¬ i < 28 by omega]
    · simp [h28, show i < 28 by omega]
  rw [hm]
  have hw := w.isLt
  rw [← BitVec.toNat_inj, BitVec.toNat_shiftLeft, BitVec.toNat_ushiftRight, Nat.shiftLeft_eq, Nat.shiftRight_eq_div_pow]
  simp only [BitVec.toNat_ofNat]
  omega

/-- What the decoder answers, by the value of the word. -/
theorem decode_cases (w : Word) :
    (w = 0x10000000#32 ∧ decode w = .ok .setup) ∨ (w = 0x20000000#32 ∧ decode w = .ok .blit) ∨
    (w.toNat / 2 ^ 28 = 3 ∧ decode w = .ok (.lookup (bitField w 0 16) (bitField w 16 8) (bitField w 24 4))) ∨
    (w ≠ 0x10000000#32 ∧ w ≠ 0x20000000#32 ∧ w.toNat / 2 ^ 28 ≠ 3 ∧ ∃ r, decode w = .error r) := by
  unfold decode
  by_cases h1 : setupRow.selects w = true
  · exact .inl ⟨(setupRow_selects_iff w).1 h1, by rw [if_pos h1]⟩
  rw [if_neg h1]
  by_cases h2 : blitRow.selects w = true
  · exact .inr (.inl ⟨(blitRow_selects_iff w).1 h2, by rw [if_pos h2]⟩)
  rw [if_neg h2]
  by_cases h3 : lookupRow.selects w = true
  · exact .inr (.inr (.inl ⟨(lookupRow_selects_iff w).1 h3, by rw [if_pos h3]⟩))
  rw [if_neg h3]
  refine .inr (.inr (.inr ⟨fun h => h1 ((setupRow_selects_iff w).2 h), fun h => h2 ((blitRow_selects_iff w).2 h),
    fun h => h3 ((lookupRow_selects_iff w).2 h), ?_⟩))
  dsimp only
  split <;> exact ⟨_, rfl⟩

end Sys2Proof.Laws
end

