-- ==== Sys2Proof/Laws/State.lean ====
section
/-!
SUPPORT. What each update of the state leaves in each field: one lemma per field per update, true by rfl.
-/

namespace Sys2Proof.Laws

open Sys2Proof Sys2Proof.Machine

section SetEngine
variable (s : State) (e : Nat) (E : Engine)
@[simp] theorem setEngine_kt0 : (s.setEngine e E).kt0 = s.kt0 := rfl
@[simp] theorem setEngine_kt1 : (s.setEngine e E).kt1 = s.kt1 := rfl
@[simp] theorem setEngine_active : (s.setEngine e E).active = s.active := rfl
@[simp] theorem setEngine_tvalid : (s.setEngine e E).tvalid = s.tvalid := rfl
@[simp] theorem setEngine_engines : (s.setEngine e E).engines = s.engines.set e E := rfl
@[simp] theorem setEngine_mem : (s.setEngine e E).mem = s.mem := rfl
@[simp] theorem setEngine_port : (s.setEngine e E).port = s.port := rfl
@[simp] theorem setEngine_hosts : (s.setEngine e E).hosts = s.hosts := rfl
@[simp] theorem setEngine_sched : (s.setEngine e E).sched = s.sched := rfl
@[simp] theorem setEngine_resets : (s.setEngine e E).resets = s.resets := rfl
@[simp] theorem setEngine_bank (b : BankIx) : (s.setEngine e E).bank b = s.bank b := rfl
end SetEngine

section SetHost
variable (s : State) (h : Nat) (H : HostAgent)
@[simp] theorem setHost_kt0 : (s.setHost h H).kt0 = s.kt0 := rfl
@[simp] theorem setHost_kt1 : (s.setHost h H).kt1 = s.kt1 := rfl
@[simp] theorem setHost_active : (s.setHost h H).active = s.active := rfl
@[simp] theorem setHost_tvalid : (s.setHost h H).tvalid = s.tvalid := rfl
@[simp] theorem setHost_engines : (s.setHost h H).engines = s.engines := rfl
@[simp] theorem setHost_mem : (s.setHost h H).mem = s.mem := rfl
@[simp] theorem setHost_port : (s.setHost h H).port = s.port := rfl
@[simp] theorem setHost_hosts : (s.setHost h H).hosts = s.hosts.set h H := rfl
@[simp] theorem setHost_sched : (s.setHost h H).sched = s.sched := rfl
@[simp] theorem setHost_resets : (s.setHost h H).resets = s.resets := rfl
@[simp] theorem setHost_bank (b : BankIx) : (s.setHost h H).bank b = s.bank b := rfl
end SetHost

section SetBank
variable (s : State) (b : BankIx) (k : Bank)
@[simp] theorem setBank_active : (s.setBank b k).active = s.active := by cases b <;> rfl
@[simp] theorem setBank_tvalid : (s.setBank b k).tvalid = s.tvalid := by cases b <;> rfl
@[simp] theorem setBank_engines : (s.setBank b k).engines = s.engines := by cases b <;> rfl
@[simp] theorem setBank_mem : (s.setBank b k).mem = s.mem := by cases b <;> rfl
@[simp] theorem setBank_port : (s.setBank b k).port = s.port := by cases b <;> rfl
@[simp] theorem setBank_hosts : (s.setBank b k).hosts = s.hosts := by cases b <;> rfl
@[simp] theorem setBank_sched : (s.setBank b k).sched = s.sched := by cases b <;> rfl
@[simp] theorem setBank_resets : (s.setBank b k).resets = s.resets := by cases b <;> rfl
@[simp] theorem setBank_bank_same : (s.setBank b k).bank b = k := by cases b <;> rfl
@[simp] theorem setBank_bank_other : (s.setBank b k).bank (!b) = s.bank (!b) := by cases b <;> rfl
end SetBank

section Raised
variable (E : Engine) (k : ErrCode)
@[simp] theorem raised_err : (E.raised k).err = k := rfl
@[simp] theorem raised_busy : (E.raised k).busy = E.busy := by cases k <;> rfl
@[simp] theorem raised_src : (E.raised k).src = E.src := by cases k <;> rfl
@[simp] theorem raised_dst : (E.raised k).dst = E.dst := by cases k <;> rfl
@[simp] theorem raised_srcLen : (E.raised k).srcLen = E.srcLen := by cases k <;> rfl
@[simp] theorem raised_dstLen : (E.raised k).dstLen = E.dstLen := by cases k <;> rfl
@[simp] theorem raised_phase : (E.raised k).phase = E.phase := by cases k <;> rfl
@[simp] theorem raised_params : (E.raised k).params = E.params := by cases k <;> rfl
@[simp] theorem raised_kresY : (E.raised k).kresY = E.kresY := by cases k <;> rfl
@[simp] theorem raised_kresI : (E.raised k).kresI = E.kresI := by cases k <;> rfl
@[simp] theorem raised_kresQ : (E.raised k).kresQ = E.kresQ := by cases k <;> rfl
@[simp] theorem raised_lop : (E.raised k).lop = E.lop := by cases k <;> rfl
@[simp] theorem raised_lbank : (E.raised k).lbank = E.lbank := by cases k <;> rfl
@[simp] theorem raised_lph : (E.raised k).lph = E.lph := by cases k <;> rfl
@[simp] theorem raised_col : (E.raised k).col = E.col := by cases k <;> rfl
@[simp] theorem raised_wb : (E.raised k).wb = E.wb := by cases k <;> rfl
@[simp] theorem raised_w : (E.raised k).w = E.w := by cases k <;> rfl
end Raised

section StartBlit
variable (C : Config) (b : BankIx) (E : Engine)
@[simp] theorem startBlit_busy : (E.startBlit C b).busy = true := rfl
@[simp] theorem startBlit_err : (E.startBlit C b).err = .none := rfl
@[simp] theorem startBlit_lop : (E.startBlit C b).lop = .blit := rfl
@[simp] theorem startBlit_lbank : (E.startBlit C b).lbank = b := rfl
@[simp] theorem startBlit_lph : (E.startBlit C b).lph = E.phase := rfl
@[simp] theorem startBlit_col : (E.startBlit C b).col = 0 := rfl
@[simp] theorem startBlit_wb : (E.startBlit C b).wb = -(C.LEFT : Int) := rfl
@[simp] theorem startBlit_w : (E.startBlit C b).w = List.replicate C.T Yiq.zero := rfl
@[simp] theorem startBlit_src : (E.startBlit C b).src = E.src := rfl
@[simp] theorem startBlit_dst : (E.startBlit C b).dst = E.dst := rfl
@[simp] theorem startBlit_srcLen : (E.startBlit C b).srcLen = E.srcLen := rfl
@[simp] theorem startBlit_dstLen : (E.startBlit C b).dstLen = E.dstLen := rfl
@[simp] theorem startBlit_phase : (E.startBlit C b).phase = E.phase := rfl
@[simp] theorem startBlit_params : (E.startBlit C b).params = E.params := rfl
@[simp] theorem startBlit_rowLen : (E.startBlit C b).rowLen = E.rowLen := rfl
end StartBlit

section Window
variable (C : Config) (s : State) (E : Engine) (px : Pixel)
@[simp] theorem retired_w : E.retired.w = shiftWindow E.w := rfl
@[simp] theorem retired_wb : E.retired.wb = E.wb + 1 := rfl
@[simp] theorem retired_col : E.retired.col = E.col := rfl
@[simp] theorem retired_lph : E.retired.lph = E.lph := rfl
@[simp] theorem retired_busy : E.retired.busy = E.busy := rfl
@[simp] theorem retired_lop : E.retired.lop = E.lop := rfl
@[simp] theorem retired_lbank : E.retired.lbank = E.lbank := rfl
@[simp] theorem retired_phase : E.retired.phase = E.phase := rfl
@[simp] theorem retired_src : E.retired.src = E.src := rfl
@[simp] theorem retired_dst : E.retired.dst = E.dst := rfl
@[simp] theorem retired_rowLen : E.retired.rowLen = E.rowLen := rfl
@[simp] theorem accumulate_wb : (E.accumulate C s px).wb = E.wb := rfl
@[simp] theorem accumulate_col : (E.accumulate C s px).col = E.col := rfl
@[simp] theorem accumulate_lph : (E.accumulate C s px).lph = (E.lph + C.STEP) % C.P := rfl
@[simp] theorem accumulate_dst : (E.accumulate C s px).dst = E.dst := rfl
@[simp] theorem accumulate_rowLen : (E.accumulate C s px).rowLen = E.rowLen := rfl
@[simp] theorem accumulate_retireAddr : (E.accumulate C s px).retireAddr = E.retireAddr := rfl
@[simp] theorem accumulate_retiresInRow : (E.accumulate C s px).retiresInRow = E.retiresInRow := rfl
@[simp] theorem accumulate_w :
    (E.accumulate C s px).w = List.zipWith Yiq.add E.w (lookupKernel C s E.lbank (C.CLASSIFY px) E.lph) := rfl
@[simp] theorem consumed_retireAddr : (E.consumed C s).retireAddr = E.retireAddr := rfl
@[simp] theorem consumed_retiresInRow : (E.consumed C s).retiresInRow = E.retiresInRow := rfl
@[simp] theorem consumed_rowLen : (E.consumed C s).rowLen = E.rowLen := rfl
@[simp] theorem consumed_wb : (E.consumed C s).wb = E.wb := rfl
@[simp] theorem consumed_col : (E.consumed C s).col = E.col := rfl
@[simp] theorem consumed_lph : (E.consumed C s).lph = (E.lph + C.STEP) % C.P := rfl
end Window

section Reset
variable (C : Config) (n : Nat) (m : Memory) (hs : List HostAgent) (l : List Agent)
@[simp] theorem afterReset_active : (State.afterReset C n m hs l).active = false := rfl
@[simp] theorem afterReset_tvalid : (State.afterReset C n m hs l).tvalid = false := rfl
@[simp] theorem afterReset_engines :
    (State.afterReset C n m hs l).engines = List.replicate C.NUM_ENGINES (Engine.reset C) := rfl
@[simp] theorem afterReset_mem : (State.afterReset C n m hs l).mem = m := rfl
@[simp] theorem afterReset_hosts : (State.afterReset C n m hs l).hosts = hs := rfl
@[simp] theorem afterReset_sched : (State.afterReset C n m hs l).sched = l := rfl
@[simp] theorem afterReset_resets : (State.afterReset C n m hs l).resets = n := rfl
@[simp] theorem engineReset_busy : (Engine.reset C).busy = false := rfl
@[simp] theorem engineReset_phase : (Engine.reset C).phase = 0 := rfl
@[simp] theorem engineReset_src : (Engine.reset C).src = 0#32 := rfl
@[simp] theorem engineReset_dst : (Engine.reset C).dst = 0#32 := rfl
end Reset

end Sys2Proof.Laws
end

