-- ==== Sys2Proof/Laws/Memory.lean ====
section
/-!
SUPPORT. The laws of pixel memory: a read after a write, and the canonical form.
-/

namespace Sys2Proof.Laws

open Sys2Proof Sys2Proof.Machine

theorem read_cons (a : Nat) (v : Byte) (m : Memory) (x : Nat) (hm : v = unlistedByte → Memory.read m a = unlistedByte) :
    Memory.read (Memory.cons a v m) x = if a = x then v else Memory.read m x := by
  unfold Memory.cons
  split
  · next h =>
    split
    · next h2 => subst h2; rw [hm h, h]
    · rfl
  · rfl

theorem read_of_lt (m : Memory) (lo x : Nat) (h : Memory.wfFrom lo m = true) (hx : x < lo) :
    Memory.read m x = unlistedByte := by
  induction m generalizing lo with
  | nil => rfl
  | cons c rest ih =>
    obtain ⟨b, v⟩ := c
    simp only [Memory.wfFrom, Bool.and_eq_true, decide_eq_true_eq] at h
    have hb : b ≠ x := by omega
    simp only [Memory.read, if_neg hb]
    exact ih (b + 1) h.2 (by omega)

theorem wfFrom_mono (m : Memory) (lo lo' : Nat) (h : Memory.wfFrom lo m = true) (hl : lo' ≤ lo) :
    Memory.wfFrom lo' m = true := by
  cases m with
  | nil => rfl
  | cons c rest =>
    obtain ⟨b, v⟩ := c
    simp only [Memory.wfFrom, Bool.and_eq_true, decide_eq_true_eq] at h ⊢
    exact ⟨⟨by omega, h.1.2⟩, h.2⟩

theorem wfFrom_cons (a : Nat) (v : Byte) (m : Memory) (lo : Nat) (h : Memory.wfFrom (a + 1) m = true)
    (hlo : lo ≤ a) (ha : a < 2 ^ 32) : Memory.wfFrom lo (Memory.cons a v m) = true := by
  unfold Memory.cons
  split
  · exact wfFrom_mono m (a + 1) lo h (by omega)
  · next hv => simp only [Memory.wfFrom, h, Bool.and_true, decide_eq_true_eq]; exact ⟨hlo, ha, hv⟩

/-- A write keeps the canonical form. -/
theorem wfFrom_write (m : Memory) (lo a : Nat) (v : Byte) (h : Memory.wfFrom lo m = true) (hlo : lo ≤ a)
    (ha : a < 2 ^ 32) : Memory.wfFrom lo (Memory.write m a v) = true := by
  induction m generalizing lo with
  | nil => exact wfFrom_cons a v [] lo rfl hlo ha
  | cons c rest ih =>
    obtain ⟨b, u⟩ := c
    have h' := h
    simp only [Memory.wfFrom, Bool.and_eq_true, decide_eq_true_eq] at h
    unfold Memory.write
    split
    · next hab =>
      apply wfFrom_cons a v _ lo _ hlo ha
      simp only [Memory.wfFrom, Bool.and_eq_true, decide_eq_true_eq]
      exact ⟨⟨by omega, h.1.2⟩, h.2⟩
    · split
      · next hab => subst hab; exact wfFrom_cons a v _ lo h.2 hlo ha
      · next h1 h2 =>
        simp only [Memory.wfFrom, Bool.and_eq_true, decide_eq_true_eq]
        exact ⟨h.1, ih (b + 1) h.2 (by omega)⟩

/-- A read after a write: the byte written at its address, the old byte everywhere else. -/
theorem read_write_from (m : Memory) (lo a : Nat) (v : Byte) (x : Nat) (h : Memory.wfFrom lo m = true) :
    Memory.read (Memory.write m a v) x = if a = x then v else Memory.read m x := by
  induction m generalizing lo with
  | nil => exact read_cons a v [] x (fun _ => rfl)
  | cons c rest ih =>
    obtain ⟨b, u⟩ := c
    have h' := h
    simp only [Memory.wfFrom, Bool.and_eq_true, decide_eq_true_eq] at h
    unfold Memory.write
    split
    · next hab =>
      exact read_cons a v _ x (fun _ => read_of_lt _ (a + 1) a
        (by simp only [Memory.wfFrom, Bool.and_eq_true, decide_eq_true_eq]; exact ⟨⟨by omega, h.1.2⟩, h.2⟩) (by omega))
    · split
      · next hab =>
        subst hab
        rw [read_cons a v rest x (fun _ => read_of_lt rest (a + 1) a h.2 (by omega))]
        simp only [Memory.read]
        split <;> rfl
      · next h1 h2 =>
        simp only [Memory.read, ih (b + 1) h.2]
        split
        · next hbx => rw [if_neg (by omega)]
        · rfl

theorem read_write (m : Memory) (a : Nat) (v : Byte) (x : Nat) (h : Memory.wf m = true) :
    Memory.read (Memory.write m a v) x = if a = x then v else Memory.read m x :=
  read_write_from m 0 a v x h

theorem read_cons_ne (a : Nat) (v : Byte) (m : Memory) (x : Nat) (h : a ≠ x) :
    Memory.read (Memory.cons a v m) x = Memory.read m x := by
  unfold Memory.cons
  split
  · rfl
  · simp [Memory.read, h]

/-- A write leaves every other byte, in any memory. -/
theorem read_write_ne (m : Memory) (a : Nat) (v : Byte) (x : Nat) (h : a ≠ x) :
    Memory.read (Memory.write m a v) x = Memory.read m x := by
  induction m with
  | nil => exact read_cons_ne a v _ x h
  | cons c rest ih =>
    obtain ⟨b, u⟩ := c
    unfold Memory.write
    split
    · exact read_cons_ne a v _ x h
    · split
      · next hab => subst hab; rw [read_cons_ne a v _ x h]; simp [Memory.read, h]
      · simp only [Memory.read, ih]

/-- A 2-byte write leaves every other byte, in any memory. -/
theorem read_write16_ne (m : Memory) (a : Word) (v : Pixel) (x : Word) (h : x ≠ a) (h' : x ≠ a + 1#32) :
    Memory.read (Memory.write16 m a v) x.toNat = Memory.read m x.toNat := by
  unfold Memory.write16
  rw [read_write_ne _ _ _ _ fun hh => h' (BitVec.eq_of_toNat_eq hh).symm,
    read_write_ne _ _ _ _ fun hh => h (BitVec.eq_of_toNat_eq hh).symm]

theorem wf_write (m : Memory) (a : Word) (v : Byte) (h : Memory.wf m = true) :
    Memory.wf (Memory.write m a.toNat v) = true :=
  wfFrom_write m 0 a.toNat v h (Nat.zero_le _) a.isLt

/-- A 2-byte write keeps the canonical form. -/
theorem wf_write16 (m : Memory) (a : Word) (v : Pixel) (h : Memory.wf m = true) :
    Memory.wf (Memory.write16 m a v) = true :=
  wf_write _ _ _ (wf_write m a _ h)

/-- Retiring a slot keeps the canonical form. -/
theorem wf_retireMem (C : Config) (E : Engine) (m : Memory) (h : Memory.wf m = true) :
    Memory.wf (retireMem C E m) = true := by
  unfold retireMem
  cases E.retiresInRow
  · exact h
  · exact wf_write16 m _ _ h

/-- Retiring a slot leaves every byte but the two of the column that slot 0 stands for. -/
theorem read_retireMem_ne (C : Config) (E : Engine) (m : Memory) (a : Word)
    (h : E.retiresInRow = true → a ≠ E.retireAddr ∧ a ≠ E.retireAddr + 1#32) :
    Memory.read (retireMem C E m) a.toNat = Memory.read m a.toNat := by
  unfold retireMem
  cases hr : E.retiresInRow
  · rfl
  · exact read_write16_ne m _ _ a (h hr).1 (h hr).2

/-- Reset memory has the canonical form. -/
theorem wf_reset : Memory.wf State.reset.mem = true := rfl

theorem toNat_add_one_ne (a : Word) : (a + 1#32).toNat ≠ a.toNat := by
  intro h
  have : a + 1#32 = a := BitVec.eq_of_toNat_eq h
  bv_omega

/-- A byte after a 2-byte write. -/
theorem read_write16 (m : Memory) (a : Word) (v : Pixel) (x : Nat) (h : Memory.wf m = true) :
    Memory.read (Memory.write16 m a v) x =
      if (a + 1#32).toNat = x then v.extractLsb' 8 8 else if a.toNat = x then v.extractLsb' 0 8 else Memory.read m x := by
  unfold Memory.write16
  rw [read_write _ _ _ _ (wf_write m a _ h), read_write m _ _ _ h]

/-- A pixel after a 2-byte write at the same address. -/
theorem read16_write16_same (m : Memory) (a : Word) (v : Pixel) (h : Memory.wf m = true) :
    Memory.read16 (Memory.write16 m a v) a = v := by
  unfold Memory.read16
  rw [read_write16 m a v _ h, read_write16 m a v _ h, if_pos rfl, if_neg (toNat_add_one_ne a), if_pos rfl]
  apply BitVec.eq_of_getLsbD_eq
  intro i hi
  simp only [BitVec.getLsbD_append, BitVec.getLsbD_extractLsb']
  split
  · next h8 => simp [h8]
  · next h8 => simp; rw [show 8 + (i - 8) = i by omega]; simp; omega

/-- A pixel after a 2-byte write at other bytes. -/
theorem read16_write16_other (m : Memory) (a b : Word) (v : Pixel) (h : Memory.wf m = true)
    (h1 : b ≠ a) (h2 : b ≠ a + 1#32) (h3 : b + 1#32 ≠ a) (h4 : b + 1#32 ≠ a + 1#32) :
    Memory.read16 (Memory.write16 m a v) b = Memory.read16 m b := by
  unfold Memory.read16
  have ne {x y : Word} (hne : y ≠ x) : x.toNat ≠ y.toNat := fun hh => hne (BitVec.eq_of_toNat_eq hh).symm
  rw [read_write16 m a v _ h, read_write16 m a v _ h, if_neg (ne h4), if_neg (ne h3), if_neg (ne h2), if_neg (ne h1)]

/-- The pixels of a row share no byte: a row is shorter than the address space. -/
theorem inPixel_inj (base : Word) (m n : Nat) (hm : m < 65536) (hn : n < 65536) (a : Word)
    (h1 : inPixel base m a) (h2 : inPixel base n a) : m = n := by
  unfold inPixel pixelAddr at *
  have hb := base.isLt
  rcases h1 with h1 | h1 <;> rcases h2 with h2 | h2 <;>
    (have h := congrArg BitVec.toNat (h1.symm.trans h2); simp only [BitVec.toNat_add, BitVec.toNat_ofNat] at h; omega)

end Sys2Proof.Laws
end

