-- ==== Sys2Proof/Laws/Ops.lean ====
section
/-!
SUPPORT. For each shared operation, what it does, once: the port, the errors, the acceptances, the engine's steps, the
banks and the registers.
-/

namespace Sys2Proof.Laws

open Sys2Proof Sys2Proof.Machine

/-! ### The port and the errors -/

theorem atPort_idle {s : State} {E : Engine} (f : Engine → State) (h : s.engines[s.port]? = some E)
    (hb : E.busy = false) : atPort s f = f E := by
  simp [atPort, h, hb]

theorem atPort_busy {s : State} {E : Engine} (f : Engine → State) (h : s.engines[s.port]? = some E)
    (hb : E.busy = true) : atPort s f = s := by
  simp [atPort, h, hb]

theorem atPort_missing {s : State} (f : Engine → State) (h : s.engines[s.port]? = none) : atPort s f = s := by
  simp [atPort, h]

theorem raiseError_of_engine {s : State} {e : Nat} {E : Engine} (k : ErrCode) (h : s.engines[e]? = some E) :
    raiseError s e k = s.setEngine e (E.raised k) := by
  simp [raiseError, h]

theorem raiseError_missing {s : State} {e : Nat} (k : ErrCode) (h : s.engines[e]? = none) : raiseError s e k = s := by
  simp [raiseError, h]

/-! ### The acceptances -/

theorem acceptSetup_idle (C : Config) {s : State} {E : Engine} (h : s.engines[s.port]? = some E) (hb : E.busy = false) :
    acceptSetup C s =
      if C.accepts E.params then s.setEngine s.port { E with err := .none, lop := .setup, busy := true }
      else s.setEngine s.port (E.raised .configuration) := by
  rw [acceptSetup, atPort_idle _ h hb, raiseError_of_engine _ h]

theorem acceptBlit_idle (C : Config) {s : State} {E : Engine} (h : s.engines[s.port]? = some E) (hb : E.busy = false) :
    acceptBlit C s =
      if s.tvalid = false then s.setEngine s.port (E.raised .uninitializedTable)
      else if E.srcLen ≠ E.dstLen then s.setEngine s.port (E.raised .lengthMismatch)
      else s.setEngine s.port (E.startBlit C s.active) := by
  rw [acceptBlit, atPort_idle _ h hb, raiseError_of_engine _ h, raiseError_of_engine _ h]
  cases s.tvalid <;> simp

theorem performLookup_idle (C : Config) (cls ph tap : Nat) {s : State} {E : Engine}
    (h : s.engines[s.port]? = some E) (hb : E.busy = false) :
    performLookup C cls ph tap s =
      if lookupInRange C cls ph tap = false then s.setEngine s.port (E.raised .illegalCommand)
      else if s.tvalid = false then s.setEngine s.port (E.raised .uninitializedTable)
      else s.setEngine s.port
        { E with
          kresY := truncWord (s.tap C s.active cls ph tap).y
          kresI := truncWord (s.tap C s.active cls ph tap).i
          kresQ := truncWord (s.tap C s.active cls ph tap).q
          err := .none } := by
  rw [performLookup, atPort_idle _ h hb, raiseError_of_engine _ h, raiseError_of_engine _ h]
  cases s.tvalid <;> cases lookupInRange C cls ph tap <;> simp

/-- What an acceptance can make of the engine at the port. -/
inductive Accepted (C : Config) (s : State) (E : Engine) : Engine → Prop where
  | error (k : ErrCode) : k ≠ .none → Accepted C s E (E.raised k)
  | setup : C.accepts E.params = true → Accepted C s E { E with err := .none, lop := .setup, busy := true }
  | blit : s.tvalid = true → E.srcLen = E.dstLen → Accepted C s E (E.startBlit C s.active)
  | lookup (y i q : Word) : s.tvalid = true → Accepted C s E { E with kresY := y, kresI := i, kresQ := q, err := .none }

/-- An acceptance answers a next state: the state as it was when no idle engine stands at the port, else the state with
that engine accepted. -/
theorem execIn_cases (C : Config) (i : Instr) (s : State) :
    (execIn C i s = .next s ∧ ∀ E, s.engines[s.port]? = some E → E.busy = true) ∨
    ∃ E F, s.engines[s.port]? = some E ∧ E.busy = false ∧ Accepted C s E F ∧
      execIn C i s = .next (s.setEngine s.port F) := by
  cases h : s.engines[s.port]? with
  | none =>
    refine .inl ⟨?_, by simp⟩
    cases i <;> simp only [execIn, acceptSetup, acceptBlit, performLookup, atPort_missing _ h]
  | some E =>
    cases hb : E.busy with
    | true =>
      refine .inl ⟨?_, by rintro _ ⟨⟩; exact hb⟩
      cases i <;> simp only [execIn, acceptSetup, acceptBlit, performLookup, atPort_busy _ h hb]
    | false =>
      refine .inr ⟨E, ?_⟩
      cases i with
      | setup =>
        by_cases ha : C.accepts E.params = true
        · exact ⟨_, rfl, hb, .setup ha, by rw [execIn, acceptSetup_idle C h hb, if_pos ha]⟩
        · exact ⟨_, rfl, hb, .error .configuration (by decide), by rw [execIn, acceptSetup_idle C h hb, if_neg ha]⟩
      | blit =>
        cases ht : s.tvalid with
        | false =>
          exact ⟨_, rfl, hb, .error .uninitializedTable (by decide), by rw [execIn, acceptBlit_idle C h hb, if_pos ht]⟩
        | true =>
          by_cases hl : E.srcLen = E.dstLen
          · exact ⟨_, rfl, hb, .blit ht hl, by
              rw [execIn, acceptBlit_idle C h hb, if_neg (by simp [ht]), if_neg (by simp [hl])]⟩
          · exact ⟨_, rfl, hb, .error .lengthMismatch (by decide), by
              rw [execIn, acceptBlit_idle C h hb, if_neg (by simp [ht]), if_pos hl]⟩
      | lookup cls ph tap =>
        cases hr : lookupInRange C cls ph tap with
        | false =>
          exact ⟨_, rfl, hb, .error .illegalCommand (by decide), by
            rw [execIn, performLookup_idle C _ _ _ h hb, if_pos hr]⟩
        | true =>
          cases ht : s.tvalid with
          | false =>
            exact ⟨_, rfl, hb, .error .uninitializedTable (by decide), by
              rw [execIn, performLookup_idle C _ _ _ h hb, if_neg (by simp [hr]), if_pos ht]⟩
          | true =>
            exact ⟨_, rfl, hb, .lookup _ _ _ ht, by
              rw [execIn, performLookup_idle C _ _ _ h hb, if_neg (by simp [hr]), if_neg (by simp [ht])]⟩

/-! ### The register map -/

theorem offset_lt (g : Reg) : g.offset < 0x100 := by cases g <;> decide

theorem regOff_toNat (e : Nat) (g : Reg) (he : e < 16) : (regOff e g).toNat = 0x100 * e + g.offset := by
  have := offset_lt g
  simp only [regOff, BitVec.toNat_ofNat]; omega

theorem offEngine_regOff (e : Nat) (g : Reg) (he : e < 16) : offEngine (regOff e g) = e := by
  have := offset_lt g
  rw [offEngine, regOff_toNat e g he]; omega

theorem offReg_regOff (e : Nat) (g : Reg) (he : e < 16) : offReg (regOff e g) = g.offset := by
  have := offset_lt g
  rw [offReg, regOff_toNat e g he]; omega

@[simp] theorem ofOffset_offset (g : Reg) : Reg.ofOffset g.offset = some g := by cases g <;> rfl

/-- An offset that names a register is that register's, and one whose writes a busy engine holds. -/
theorem ofOffset_some (r : Nat) (g : Reg) (h : Reg.ofOffset r = some g) : g.offset = r ∧ heldOffset r = true := by
  have hr := List.find?_some h
  simp only [decide_eq_true_eq] at hr
  subst hr
  exact ⟨rfl, by cases g <;> decide⟩

/-! ### Registers and the window -/

/-- A register write leaves everything but the register it names. -/
theorem writeReg_hidden (C : Config) (E : Engine) (g : Reg) (v : Word) :
    (E.writeReg C g v).busy = E.busy ∧ (E.writeReg C g v).err = E.err ∧ (E.writeReg C g v).lop = E.lop ∧
    (E.writeReg C g v).lbank = E.lbank ∧ (E.writeReg C g v).lph = E.lph ∧ (E.writeReg C g v).col = E.col ∧
    (E.writeReg C g v).wb = E.wb ∧ (E.writeReg C g v).w = E.w := by
  cases g <;> exact ⟨rfl, rfl, rfl, rfl, rfl, rfl, rfl, rfl⟩

@[simp] theorem shiftWindow_length (l : List Yiq) : (shiftWindow l).length = l.length := by
  cases l <;> simp [shiftWindow]

@[simp] theorem lookupKernel_length (C : Config) (s : State) (b : BankIx) (c p : Nat) :
    (lookupKernel C s b c p).length = C.T := by
  simp [lookupKernel]

/-- The table of a bank is read through the bank alone. -/
theorem tap_of_bank (C : Config) (s t : State) (b : BankIx) (h : t.bank b = s.bank b) : t.tap C b = s.tap C b := by
  funext c p k; simp [State.tap, h]

/-- Publishing: the shadow bank holds the new table, the other bank is as it was. -/
theorem completeSetup_bank (e : Nat) (E : Engine) (s : State) (b : BankIx) :
    (completeSetup e E s).bank b = if b = s.active then s.bank b else .image E.params := by
  cases b <;> cases h : s.active <;> simp [completeSetup, State.setEngine, State.setBank, State.bank, h]

@[simp] theorem completeSetup_active (e : Nat) (E : Engine) (s : State) : (completeSetup e E s).active = !s.active := rfl
@[simp] theorem completeSetup_tvalid (e : Nat) (E : Engine) (s : State) : (completeSetup e E s).tvalid = true := rfl
@[simp] theorem completeSetup_engines (e : Nat) (E : Engine) (s : State) :
    (completeSetup e E s).engines = s.engines.set e { E with busy := false } := by
  simp [completeSetup, State.setEngine]
@[simp] theorem completeSetup_mem (e : Nat) (E : Engine) (s : State) : (completeSetup e E s).mem = s.mem := by
  simp [completeSetup, State.setEngine]
@[simp] theorem completeSetup_hosts (e : Nat) (E : Engine) (s : State) : (completeSetup e E s).hosts = s.hosts := by
  simp [completeSetup, State.setEngine]
@[simp] theorem completeSetup_sched (e : Nat) (E : Engine) (s : State) : (completeSetup e E s).sched = s.sched := by
  simp [completeSetup, State.setEngine]
@[simp] theorem completeSetup_port (e : Nat) (E : Engine) (s : State) : (completeSetup e E s).port = s.port := by
  simp [completeSetup, State.setEngine]
@[simp] theorem completeSetup_resets (e : Nat) (E : Engine) (s : State) : (completeSetup e E s).resets = s.resets := by
  simp [completeSetup, State.setEngine]

end Sys2Proof.Laws
end

