-- ==== Sys2Proof/Laws/PerInstr.lean ====
section
/-!
SUPPORT. The family EncodingRow: the word of a well-formed command selects its own row of the opcode map and no other
(spec 30_encoding R93).
-/

namespace Sys2Proof.Laws.EncodingRow

open Sys2Proof Sys2Proof.Laws

def Statement (i : Instr) : Prop :=
  i.wellFormed = true → ∀ r ∈ [setupRow, blitRow, lookupRow], r.selects (encode i) = decide (r = i.row)

theorem setup : Statement .setup := by
  intro _; decide

theorem blit : Statement .blit := by
  intro _; decide

theorem lookup (cls ph tap : Nat) : Statement (.lookup cls ph tap) := by
  intro h
  simp only [Instr.wellFormed, clsFits, phFits, tapFits, Bool.and_eq_true, decide_eq_true_eq] at h
  have hv : (encode (.lookup cls ph tap)).toNat = 0x30000000 + tap * 2 ^ 24 + ph * 2 ^ 16 + cls := by
    simp only [encode, BitVec.toNat_ofNat]; omega
  have h1 : setupRow.selects (encode (.lookup cls ph tap)) = false := by
    rw [Bool.eq_false_iff, ne_eq, setupRow_selects_iff, ← BitVec.toNat_inj, hv]
    simp only [BitVec.toNat_ofNat]; omega
  have h2 : blitRow.selects (encode (.lookup cls ph tap)) = false := by
    rw [Bool.eq_false_iff, ne_eq, blitRow_selects_iff, ← BitVec.toNat_inj, hv]
    simp only [BitVec.toNat_ofNat]; omega
  have h3 : lookupRow.selects (encode (.lookup cls ph tap)) = true := by
    rw [lookupRow_selects_iff, hv]; omega
  intro r hr
  simp only [List.mem_cons, List.not_mem_nil, or_false] at hr
  rcases hr with rfl | rfl | rfl
  · rw [h1]; rfl
  · rw [h2]; rfl
  · rw [h3]; rfl

end Sys2Proof.Laws.EncodingRow
end

