-- ==== Sys2Proof/Laws/Reference.lean ====
section
/-!
SUPPORT. The reference configuration: its FINAL is the formula of R216, and its scalars meet the bounds of R10.
-/

namespace Sys2Proof.Laws

open Sys2Proof

theorem clamp_cut (v : Int) (k : Nat) (m : Int) (hm : 0 ≤ m) :
    (clamp (asr v k) 0 (asr m k)).toNat = (clamp v 0 m).toNat / 2 ^ k := by
  have hk : (0 : Int) < 2 ^ k := by positivity
  unfold clamp asr
  rcases lt_trichotomy v 0 with h | h | h
  · rw [if_pos (Int.ediv_neg_of_neg_of_pos h hk), if_pos h]; simp
  · subst h; simp; split <;> split <;> simp_all <;> omega
  · have h1 : ¬ v < 0 := by omega
    have h2 : ¬ v / 2 ^ k < 0 := by
      have := Int.ediv_nonneg h.le hk.le; omega
    rw [if_neg h1, if_neg h2]
    have conv : ∀ x : Int, 0 ≤ x → (x / 2 ^ k).toNat = x.toNat / 2 ^ k := by
      intro x hx
      obtain ⟨n, rfl⟩ := Int.eq_ofNat_of_zero_le hx
      have : ((n : Int) / 2 ^ k) = ((n / 2 ^ k : Nat) : Int) := by push_cast; rfl
      rw [this, Int.toNat_natCast, Int.toNat_natCast]
    by_cases hc : m < v
    · rw [if_pos hc, ← conv m hm]
      by_cases hc2 : m / 2 ^ k < v / 2 ^ k
      · rw [if_pos hc2]
      · rw [if_neg hc2]
        have : m / 2 ^ k ≤ v / 2 ^ k := Int.ediv_le_ediv hk hc.le
        rw [show v / 2 ^ k = m / 2 ^ k by omega]
    · rw [if_neg hc, if_neg (by have := Int.ediv_le_ediv hk (show v ≤ m by omega); omega), conv v h.le]

/-- Cutting the 8-bit channels before the clamp is R216's cutting after it. -/
theorem ref_final_eq (a : Yiq) : Config.ref.final a = Ref.final a := by
  show Rgb.clampPack (Ref.channels a) = Ref.final a
  have h3 : asr 255 3 = 31 := rfl
  have h2 : asr 255 2 = 63 := rfl
  unfold Rgb.clampPack Ref.channels Ref.final
  dsimp only
  rw [← h3, ← h2, clamp_cut _ 3 255 (by decide), clamp_cut _ 2 255 (by decide), clamp_cut _ 3 255 (by decide)]

theorem ref_scalarsOk : Config.ref.ScalarsOk where
  P_pos := by decide
  P_le := by decide
  STEP_lt := by decide
  T_pos := by decide
  T_le := by decide
  LEFT_lt := by decide
  NCLASS_pos := by decide
  NCLASS_le := by decide
  KW_ge := by decide
  KW_le := by decide
  AW_ge := by decide
  AW_le := by decide
  ENGINES_pos := by decide
  ENGINES_le := by decide
  BASE_aligned := by
    show (Config.platformPage ++ 0#12).toNat % 0x1000 = 0
    rw [BitVec.toNat_append]
    simp [Nat.shiftLeft_eq]
  CLASSIFY_lt := fun px => px.isLt
  CLASSIFY_REP := fun c hc => by
    show (BitVec.ofNat 16 c).toNat = c
    simp only [BitVec.toNat_ofNat]
    exact Nat.mod_eq_of_lt hc
  NEUTRAL_valid := by decide
  NEUTRAL_fmt := by decide

end Sys2Proof.Laws
end

