-- ==== Sys2Proof/Laws/Step.lean ====
section
/-!
SUPPORT. What a step can do, said once: the engine's turn, the host's turn, the machine's step.
-/

namespace Sys2Proof.Laws

open Sys2Proof Sys2Proof.Machine

/-- The machine in REF is the machine of configuration `Config.ref`. -/
theorem exec_eq_execIn (i : Instr) (s : State) : exec i s = execIn Config.ref i s := by
  cases i <;> rfl

theorem exec_fun_eq : exec = execIn Config.ref := by
  funext i s; exact exec_eq_execIn i s

theorem step_eq_stepIn (s : State) : step s = stepIn Config.ref s := by
  unfold step stepIn; rw [exec_fun_eq]

/-! ### Runs -/

theorem run_next (M : Host.Core) (k : Nat) (s t : M.State) (h : M.step s = .next t) : M.run (k + 1) s = M.run k t := by
  rw [Host.Core.run.eq_2, h]

/-- A run of one step more, from the first step. -/
theorem runIn_next (C : Config) (k : Nat) (s t : State) (h : stepIn C s = .next t) : runIn C (k + 1) s = runIn C k t :=
  run_next (coreIn C) k s t h

/-- A run that answers a next state takes its first step to one. -/
theorem run_succ_cases (M : Host.Core) (k : Nat) (s u : M.State) (h : M.run (k + 1) s = .next u) :
    ∃ t, M.step s = .next t ∧ M.run k t = .next u := by
  rw [Host.Core.run.eq_2] at h
  cases hs : M.step s with
  | next t => rw [hs] at h; exact ⟨t, rfl, h⟩
  | fault r => rw [hs] at h; cases h
  | refused r => rw [hs] at h; cases h

theorem runIn_succ_cases (C : Config) (k : Nat) (s u : State) (h : runIn C (k + 1) s = .next u) :
    ∃ t, stepIn C s = .next t ∧ runIn C k t = .next u :=
  run_succ_cases (coreIn C) k s u h

/-! ### Whose turn it is -/

/-- A step in the turn of an engine is that engine's step. -/
theorem stepIn_engineTurn {C : Config} {s : State} {e : Nat} {E : Engine} {rest : List Agent}
    (h : EngineTurnOf s e E rest) :
    stepIn C s = .next (engineStep C e { s with sched := rest ++ [.engine e] }) := by
  simp [stepIn, scheduledStep, h.1, takeTurn]

/-- A step in the turn of a host agent that holds no write takes up its next operation. -/
theorem scheduledStep_hostTurn {C : Config} {run : Acceptance} {s : State} {h : Nat} {H : HostAgent} {op : HostOp}
    {ops : List HostOp} {rest : List Agent} (ht : HostTurnOf s h H op ops rest) :
    scheduledStep C run s = hostIssue C run h { H with ops := ops } op { s with sched := rest ++ [.host h] } := by
  obtain ⟨h1, h2, h3, h4⟩ := ht
  simp [scheduledStep, h1, takeTurn, hostStep, h2, h3, h4]

/-! ### An engine's turn -/

/-- What an engine's turn does: nothing, or the one step its running command has enabled. -/
inductive EngineTurn (C : Config) (e : Nat) (s : State) : State → Prop where
  | idle : EngineTurn C e s s
  | publish (E : Engine) : s.engines[e]? = some E → E.busy = true → E.lop = .setup → refcnt s (!s.active) = 0 →
      EngineTurn C e s (completeSetup e E s)
  | pixel (E : Engine) : s.engines[e]? = some E → E.busy = true → E.lop = .blit → E.col < E.rowLen →
      pixelAdmitted C E = true → EngineTurn C e s (pixelStep C e E s)
  | flush (E : Engine) : s.engines[e]? = some E → E.busy = true → E.lop = .blit → E.rowLen ≤ E.col → E.wb < E.rowLen →
      retireAdmitted C E = true → EngineTurn C e s (flushStep C e E s)
  | complete (E : Engine) : s.engines[e]? = some E → E.busy = true → E.lop = .blit → E.rowLen ≤ E.col →
      (E.rowLen : Int) ≤ E.wb → EngineTurn C e s (completeBlit e E s)

theorem engineStep_cases (C : Config) (e : Nat) (s : State) : EngineTurn C e s (engineStep C e s) := by
  unfold engineStep
  split
  · exact .idle
  · next E hE =>
    split
    · exact .idle
    · next hb =>
      have hb' : E.busy = true := by simpa using hb
      split
      · next hl =>
        split
        · next h => exact .publish E hE hb' hl (by simpa [setupEnabled] using h)
        · exact .idle
      · next hl =>
        unfold blitStep
        split
        · next hc =>
          split
          · next ha => exact .pixel E hE hb' hl hc ha
          · exact .idle
        · next hc =>
          split
          · next hw =>
            split
            · next ha => exact .flush E hE hb' hl (by omega) hw ha
            · exact .idle
          · next hw => exact .complete E hE hb' hl (by omega) (by omega)

/-! ### A host's turn -/

/-- What a register write does when it takes place. -/
inductive RegWritten (C : Config) (off : BitVec 12) (v : Word) (s : State) : State → Prop where
  | ignored : RegWritten C off v s s
  | illegal (E : Engine) (r : DecodeError) : s.engines[offEngine off]? = some E →
      Reg.ofOffset (offReg off) = some .cmd → decode v = .error r →
      RegWritten C off v s (raiseError s (offEngine off) .illegalCommand)
  | command (E : Engine) (i : Instr) (t : State) : s.engines[offEngine off]? = some E →
      Reg.ofOffset (offReg off) = some .cmd → decode v = .ok i →
      execIn C i { s with port := offEngine off } = .next t → RegWritten C off v s t
  | stored (E : Engine) (g : Reg) : s.engines[offEngine off]? = some E → Reg.ofOffset (offReg off) = some g →
      g ≠ .cmd → RegWritten C off v s (s.setEngine (offEngine off) (E.writeReg C g v))

theorem regWrite_cases (C : Config) (off : BitVec 12) (v : Word) (s t : State)
    (h : regWrite C (execIn C) off v s = .next t) : RegWritten C off v s t := by
  unfold regWrite at h
  split at h
  · next E hE hg =>
    unfold acceptCommand at h
    split at h
    · next i hi => exact .command E i t hE hg hi h
    · next r hr => cases h; exact .illegal E r hE hg hr
  · next E g hne hE hg => cases h; exact .stored E g hE hg hne
  · cases h; exact .ignored

/-- What a host's turn does when it answers a next state. -/
inductive HostTurn (C : Config) (h : Nat) (s : State) : State → Prop where
  | wait : HostTurn C h s s
  | agentOnly (H : HostAgent) : HostTurn C h s (s.setHost h H)
  | memory (H : HostAgent) (a : Word) (v : Pixel) : admitted16 C a = true →
      HostTurn C h s { s.setHost h H with mem := Memory.write16 s.mem a v }
  | register (H : HostAgent) (off : BitVec 12) (v : Word) (t : State) : writeHeld s off = false →
      RegWritten C off v (s.setHost h H) t → HostTurn C h s t

theorem hostStep_cases (C : Config) (h : Nat) (s t : State) (ht : hostStep C (execIn C) h s = .next t) :
    HostTurn C h s t := by
  unfold hostStep at ht
  split at ht
  · cases ht; exact .wait
  · next H hH =>
    split at ht
    · next off v hheld =>
      split at ht
      · cases ht; exact .wait
      · next hw => exact .register _ off v t (by simpa using hw) (regWrite_cases C off v _ t ht)
    · split at ht
      · cases ht; exact .wait
      · next op rest hops =>
        unfold hostIssue at ht
        split at ht
        · split at ht
          · cases ht
          · split at ht
            · cases ht; exact .agentOnly _
            · next hw => exact .register _ _ _ t (by simpa using hw) (regWrite_cases C _ _ _ t ht)
        · split at ht
          · cases ht
          · cases ht; exact .agentOnly _
        · split at ht
          · next ha => cases ht; exact .memory _ _ _ ha
          · cases ht
        · split at ht
          · cases ht; exact .agentOnly _
          · cases ht
        · dsimp only at ht
          split at ht
          · cases ht; exact .wait
          · cases ht; exact .agentOnly _

/-! ### The machine's step -/

/-- What a step does when it answers a next state: `u` is the state with the schedule moved on. -/
inductive Stepped (C : Config) (s : State) : State → Prop where
  | nobody : s.sched = [] → Stepped C s s
  | host (h : Nat) (rest : List Agent) (t : State) : s.sched = .host h :: rest →
      HostTurn C h { s with sched := rest ++ [.host h] } t → Stepped C s t
  | engine (e : Nat) (rest : List Agent) (t : State) : s.sched = .engine e :: rest →
      EngineTurn C e { s with sched := rest ++ [.engine e] } t → Stepped C s t
  | reset (rest : List Agent) : s.sched = .reset :: rest →
      Stepped C s (resetStep C { s with sched := rest ++ [.reset] })

theorem stepIn_cases (C : Config) (s t : State) (h : stepIn C s = .next t) : Stepped C s t := by
  unfold stepIn scheduledStep at h
  split at h
  · next hs => cases h; exact .nobody hs
  · next a rest hs =>
    cases a with
    | host n => exact .host n rest t hs (hostStep_cases C n _ t h)
    | engine e => cases h; exact .engine e rest _ hs (engineStep_cases C e _)
    | reset => cases h; exact .reset rest hs

/-- A register write leaves the schedule, the agents and pixel memory. -/
theorem regWritten_frame {C : Config} {off : BitVec 12} {v : Word} {s t : State} (h : RegWritten C off v s t) :
    t.sched = s.sched ∧ t.hosts = s.hosts ∧ t.mem = s.mem ∧ t.resets = s.resets := by
  cases h with
  | ignored => exact ⟨rfl, rfl, rfl, rfl⟩
  | illegal E r hE _ _ => rw [raiseError_of_engine _ hE]; exact ⟨rfl, rfl, rfl, rfl⟩
  | command E i t _ _ _ h =>
    rcases execIn_cases C i { s with port := offEngine off } with ⟨h', -⟩ | ⟨_, _, _, _, _, h'⟩ <;>
      (rw [h'] at h; cases h; exact ⟨rfl, rfl, rfl, rfl⟩)
  | stored E g _ _ _ => exact ⟨rfl, rfl, rfl, rfl⟩

/-- A step moves the agent whose turn it was to the end of the schedule. -/
theorem stepIn_sched (C : Config) (s t : State) (a : Agent) (l : List Agent) (hs : s.sched = a :: l)
    (h : stepIn C s = .next t) : t.sched = l ++ [a] := by
  rcases stepIn_cases C s t h with h0 | ⟨k, rest, t, h1, h2⟩ | ⟨f, rest, t, h1, h2⟩ | ⟨rest, h0⟩
  · rw [hs] at h0; cases h0
  · rw [hs] at h1; cases h1
    cases h2 with
    | wait => rfl
    | agentOnly H => rfl
    | memory H a v _ => rfl
    | register H off v t _ hr => exact (regWritten_frame hr).1
  · rw [hs] at h1; cases h1
    cases h2 with
    | idle => rfl
    | publish E _ _ _ _ => simp
    | pixel E _ _ _ _ _ => rfl
    | flush E _ _ _ _ _ _ => rfl
    | complete E _ _ _ _ _ => rfl
  · rw [hs] at h0; cases h0; rfl

end Sys2Proof.Laws
end

