-- ==== Sys2Proof/Laws/Yiq.lean ====
section
/-!
SUPPORT. The addition of triples and the sum of a list of them.
-/

namespace Sys2Proof.Laws

open Sys2Proof

@[simp] theorem yiq_add_zero (a : Yiq) : a.add Yiq.zero = a := by cases a; simp [Yiq.add, Yiq.zero]

@[simp] theorem yiq_zero_add (a : Yiq) : Yiq.zero.add a = a := by cases a; simp [Yiq.add, Yiq.zero]

theorem yiq_add_assoc (a b c : Yiq) : (a.add b).add c = a.add (b.add c) := by simp [Yiq.add, Int.add_assoc]

theorem yiq_sum_append (l m : List Yiq) : Yiq.sum (l ++ m) = (Yiq.sum l).add (Yiq.sum m) := by
  induction l with
  | nil => simp [Yiq.sum]
  | cons a l ih => simp [Yiq.sum, ih, yiq_add_assoc]

/-- A sum whose terms are all zero is zero. -/
theorem yiq_sum_zero (l : List Yiq) (h : ∀ a ∈ l, a = Yiq.zero) : Yiq.sum l = Yiq.zero := by
  induction l with
  | nil => rfl
  | cons a l ih => rw [Yiq.sum, h a (by simp), ih fun b hb => h b (by simp [hb]), yiq_zero_add]

theorem yiq_sum_y (l : List Yiq) : (Yiq.sum l).y = (l.map (·.y)).sum := by
  induction l with
  | nil => rfl
  | cons a l ih => simp [Yiq.sum, Yiq.add, ih]

theorem yiq_sum_i (l : List Yiq) : (Yiq.sum l).i = (l.map (·.i)).sum := by
  induction l with
  | nil => rfl
  | cons a l ih => simp [Yiq.sum, Yiq.add, ih]

theorem yiq_sum_q (l : List Yiq) : (Yiq.sum l).q = (l.map (·.q)).sum := by
  induction l with
  | nil => rfl
  | cons a l ih => simp [Yiq.sum, Yiq.add, ih]

end Sys2Proof.Laws
end

