-- ==== Sys2Proof/Laws/Window.lean ====
section
/-!
SUPPORT. What the slots of the window hold: the small lemmas of `partialSum` and `Engine.SlotsOk`, one for each thing a
step does to the window (R161, R172, R174).
-/

namespace Sys2Proof.Laws

open Sys2Proof Sys2Proof.Machine

/-- Replacing one term of a sum that was zero adds it. -/
theorem yiq_sum_update (n k : Nat) (f g : Nat → Yiq) (hk : k < n) (h0 : f k = Yiq.zero) (h : ∀ t, t ≠ k → g t = f t) :
    Yiq.sum ((List.range n).map g) = (Yiq.sum ((List.range n).map f)).add (g k) := by
  induction n with
  | zero => omega
  | succ n ih =>
    simp only [List.range_succ, List.map_append, List.map_cons, List.map_nil, yiq_sum_append, Yiq.sum, yiq_add_zero]
    rcases Nat.lt_succ_iff_lt_or_eq.1 hk with hlt | rfl
    · rw [ih hlt, h n (by omega)]
      simp only [Yiq.add, Yiq.mk.injEq]
      omega
    · have hg : (List.range k).map g = (List.range k).map f :=
        List.map_congr_left fun t ht => h t (by have := List.mem_range.1 ht; omega)
      rw [hg, h0, yiq_add_zero]

theorem partialSum_zero (C : Config) (hC : C.ScalarsOk) (b : Bank) (lo : Nat) : partialSum C b lo Yiq.zero :=
  ⟨fun _ => false, fun _ => 0, fun _ => 0, fun _ => hC.NCLASS_pos, fun _ => hC.P_pos,
    (yiq_sum_zero _ (by simp)).symm⟩

/-- A sum of taps from fewer positions is one of taps from more. -/
theorem partialSum_mono {C : Config} {b : Bank} {lo lo' : Nat} {a : Yiq} (hl : lo' ≤ lo) (h : partialSum C b lo a) :
    partialSum C b lo' a := by
  obtain ⟨pick, cls, ph, hc, hp, rfl⟩ := h
  refine ⟨fun t => decide (lo ≤ t) && pick t, cls, ph, hc, hp, ?_⟩
  congr 1
  apply List.map_congr_left
  intro t _
  by_cases h1 : lo ≤ t
  · simp [h1, le_trans hl h1]
  · simp [h1]

/-- Adding a tap of the position below. -/
theorem partialSum_add_tap {C : Config} {b : Bank} {lo c p : Nat} {a : Yiq} (h : partialSum C b (lo + 1) a)
    (hlo : lo < C.T) (hc : c < C.NCLASS) (hp : p < C.P) : partialSum C b lo (a.add (b.tap C c p lo)) := by
  obtain ⟨pick, cls, ph, hcls, hph, rfl⟩ := h
  refine ⟨fun t => decide (t = lo) || pick t, fun t => if t = lo then c else cls t, fun t => if t = lo then p else ph t,
    fun t => ?_, fun t => ?_, ?_⟩
  · dsimp only; split
    · exact hc
    · exact hcls t
  · dsimp only; split
    · exact hp
    · exact hph t
  · refine (Eq.trans (yiq_sum_update C.T lo
      (fun t => if lo + 1 ≤ t ∧ pick t = true then b.tap C (cls t) (ph t) t else Yiq.zero) _ hlo ?_ ?_) ?_).symm
    · exact if_neg (by omega)
    · intro t ht
      simp only [if_neg ht, decide_eq_false ht, Bool.false_or]
      congr 1
      rw [eq_iff_iff]
      constructor <;> rintro ⟨h1, h2⟩ <;> exact ⟨by omega, h2⟩
    · simp

/-- Retiring slot 0 moves every slot down by one. -/
theorem slotsOk_retired {C : Config} (hC : C.ScalarsOk) {s : State} {lo : Nat} {E : Engine} (h : E.SlotsOk C s lo) :
    E.retired.SlotsOk C s (lo + 1) := by
  intro j a ha
  rw [retired_w] at ha
  cases hw : E.w with
  | nil => simp [hw, shiftWindow] at ha
  | cons x r =>
    simp only [hw, shiftWindow, List.getElem?_append] at ha
    split at ha
    · have := h (j + 1) a (by simpa [hw] using ha)
      rwa [show j + (lo + 1) = j + 1 + lo by omega]
    · have hz : a = Yiq.zero := by simpa using List.mem_of_getElem? ha
      rw [hz]; exact partialSum_zero C hC _ _

/-- Adding the kernel of a pixel adds to slot `j` a tap of position `j`. -/
theorem slotsOk_consumed {C : Config} (hC : C.ScalarsOk) {s : State} {E : Engine} (h : E.SlotsOk C s 1)
    (hp : E.lph < C.P) : (E.consumed C s).SlotsOk C s 0 := by
  intro j a ha
  rw [Engine.consumed, accumulate_w, List.getElem?_zipWith] at ha
  split at ha
  · next x y hx hy =>
    cases ha
    have hj : j < C.T := by simpa using (List.getElem?_eq_some_iff.1 hy).1
    have hy' : y = s.tap C E.lbank (C.CLASSIFY (C.ADJ (Memory.read16 s.mem E.readAddr))) E.lph j := by
      simp only [lookupKernel, List.getElem?_map, List.getElem?_range hj, Option.map_some, Option.some.injEq] at hy
      exact hy.symm
    rw [hy']
    exact partialSum_add_tap (h j x hx) hj (hC.CLASSIFY_lt _) hp
  · cases ha

/-- The window a BLIT starts with. -/
theorem slotsOk_startBlit {C : Config} (hC : C.ScalarsOk) (s : State) (b : BankIx) (E : Engine) (lo : Nat) :
    (E.startBlit C b).SlotsOk C s lo := by
  intro j a ha
  have hz : a = Yiq.zero := by
    have := List.mem_of_getElem? ha
    rw [startBlit_w] at this
    exact List.eq_of_mem_replicate this
  rw [hz]; exact partialSum_zero C hC _ _

/-- The slots speak of the state through the latched bank alone. -/
theorem slotsOk_of_bank {C : Config} {s t : State} {lo : Nat} {E : Engine} (h : E.SlotsOk C s lo)
    (hb : t.bank E.lbank = s.bank E.lbank) : E.SlotsOk C t lo := by
  intro j a ha; rw [hb]; exact h j a ha

end Sys2Proof.Laws
end

