-- ==== Sys2Proof/Tests/Slice0.lean ====
section
/-!
SUPPORT. Tests: ill-formed commands are refused, words written out from the spec's encoding decode, single steps give the
spec's values, and every obligation's hypotheses are met by a concrete state and operands (`witness_<obligation>`).
-/

namespace Sys2Proof.Tests

open Sys2Proof Sys2Proof.Machine Sys2Proof.Laws

/-! ### WellFormed refuses what no field holds (R91) -/

theorem test_cls_too_wide : (Instr.lookup (2 ^ 16) 0 0).wellFormed = false := by decide
theorem test_ph_too_wide : (Instr.lookup 0 (2 ^ 8) 0).wellFormed = false := by decide
theorem test_tap_too_wide : (Instr.lookup 0 0 (2 ^ 4)).wellFormed = false := by decide

/-! ### Words written out field by field: OP, TAP, PH, CLS (R91, R93) -/

theorem test_decode_setup : decode 0b00010000000000000000000000000000#32 = .ok .setup := by decide
theorem test_decode_blit : decode 0b00100000000000000000000000000000#32 = .ok .blit := by decide
/-- `LOOKUP E0, 0xF800, 1, 4` (R102). -/
theorem test_decode_lookup : decode 0b00110100000000011111100000000000#32 = .ok (.lookup 0xF800 1 4) := by decide
theorem test_decode_table_word : decodeTableWord 32 0x3401F800 = some (.lookup 0xF800 1 4) := by decide

/-! ### Small states -/

/-- An idle engine of REF. -/
def idle : Engine := Engine.reset Config.ref

/-- An idle engine with a row of one pixel at address 0 and its output at address 8. -/
def oneRow : Engine := { idle with dst := 8#32, srcLen := 1#16, dstLen := 1#16 }

/-- A running SETUP. -/
def building : Engine := { idle with busy := true }

/-- A running BLIT of one pixel. -/
def blitting : Engine := oneRow.startBlit Config.ref false

/-- REF with the engine `E` and the NEUTRAL table published in bank 0. -/
def ready (E : Engine) : State :=
  { State.reset with engines := [E], tvalid := true, kt0 := .image Config.ref.NEUTRAL }

/-- A host agent with one operation to do. -/
def agent (op : HostOp) : HostAgent := { ops := [op], held := none, seen := [] }

/-- `s` with one host agent, whose turn is next. -/
def hosted (s : State) (op : HostOp) : State := { s with hosts := [agent op], sched := [.host 0] }

/-- What engine `e` of the next state is. -/
def engineOf (o : Host.Outcome State Fault Refusal) (e : Nat) : Option Engine :=
  match o with
  | .next t => t.engines[e]?
  | _ => none

/-! ### Steps, with the spec's values -/

/-- SETUP is accepted right after reset (R137 (e)). -/
theorem test_setup_from_reset :
    engineOf (step (State.reset.withFetchWord 32 0x10000000)) 0 = some { idle with busy := true, lop := .setup } := by
  decide

/-- `P_FMT = 0x00001008` raises ConfigurationError; STATUS reads 0x00000112 (R138). -/
theorem test_setup_wrong_width :
    (engineOf (exec .setup (ready { idle with params := { idle.params with fmt := 0x00001008#32 } })) 0).map
      (statusWord true) = some 0x00000112#32 := by
  decide

/-- White under NEUTRAL, tap 2: (100270080, 0, 0) (R215). -/
theorem test_lookup_white :
    (engineOf (step ((ready idle).withFetchWord 32 0x3200FFFF)) 0).map (fun E => (E.kresY, E.kresI, E.kresQ, E.err)) =
      some (100270080#32, 0#32, 0#32, .none) := by
  decide

/-- LOOKUP after reset raises UninitializedTable (R271). -/
theorem test_lookup_from_reset :
    engineOf (step (State.reset.withFetchWord 32 0x3200FFFF)) 0 =
      some { idle with err := .uninitializedTable, sUninit := true } := by
  decide

/-- BLIT after reset raises UninitializedTable (R271). -/
theorem test_blit_from_reset :
    engineOf (step (State.reset.withFetchWord 32 0x20000000)) 0 =
      some { idle with err := .uninitializedTable, sUninit := true } := by
  decide

/-- A row of one white pixel: column 0 gets FINAL of tap 2, luma 100270080 (R184 (c), R215). Rounded it is 24480, so each
8-bit channel is (256 * 24480 + 32768) >> 16 = 96, packed 0x630C (R216). -/
theorem test_blit_one_white_pixel :
    (runIn Config.ref 3 { ready blitting with
      mem := [(0, 0xFF#8), (1, 0xFF#8)], sched := [.engine 0, .engine 0, .engine 0] }) matches .next
        { mem := [(0, 0xFF#8), (1, 0xFF#8), (8, 0x0C#8), (9, 0x63#8)], .. } := by
  decide

/-! ### Witnesses: encoding -/

theorem witness_DecodeInvertsEncode : Instr.setup.wellFormed = true ∧ Instr.blit.wellFormed = true ∧
    (Instr.lookup 0 0 0).wellFormed = true ∧ (Instr.lookup 65535 255 15).wellFormed = true := by decide

theorem witness_EncodeInvertsDecode : decode 0x3FFFFFFF#32 = .ok (.lookup 65535 255 15) ∧
    decode 0x10000000#32 = .ok .setup := by decide

theorem witness_EncodingExamplesDecode : IdleAtPort State.reset idle := by decide

theorem witness_StepRunsTheCommandWritten :
    HostTurnOf (hosted State.reset (.wr (regOff 0 .cmd) 0x10000000#32)) 0 (agent (.wr (regOff 0 .cmd) 0x10000000#32))
      (.wr (regOff 0 .cmd) 0x10000000#32) [] [] ∧ 0 < 16 ∧
    (hosted State.reset (.wr (regOff 0 .cmd) 0x10000000#32)).engines[0]? = some idle ∧ idle.busy = false ∧
    decode 0x10000000#32 = .ok .setup := by decide

theorem witness_UnmatchedWordRaisesIllegalCommand :
    HostTurnOf (hosted State.reset (.wr (regOff 0 .cmd) 0x20000001#32)) 0 (agent (.wr (regOff 0 .cmd) 0x20000001#32))
      (.wr (regOff 0 .cmd) 0x20000001#32) [] [] ∧ 0 < 16 ∧
    (hosted State.reset (.wr (regOff 0 .cmd) 0x20000001#32)).engines[0]? = some idle ∧ idle.busy = false ∧
    decode 0x20000001#32 = .error (.reservedBitsSet 2) := by decide

/-! ### Witnesses: registers -/

/-- The first attempt, at the first and at the last offset that is held. -/
theorem witness_WriteToABusyEngineIsHeld : ∀ off ∈ [0x000#12, 0x048#12],
    (hosted (ready building) (.wr off 0#32)).sched = [.host 0] ∧
    (hosted (ready building) (.wr off 0#32)).hosts[0]? = some (agent (.wr off 0#32)) ∧
    (hosted (ready building) (.wr off 0#32)).engines[offEngine off]? = some building ∧ building.busy = true ∧
    offReg off ≤ 0x48 ∧ offReg off ≠ 0x3C ∧ off.toNat % 4 = 0 ∧ (agent (.wr off 0#32)).held = none ∧
    (agent (.wr off 0#32)).ops = [.wr off 0#32] := by decide

/-- The write already held, by a busy engine and then by an idle one. -/
def holding (E : Engine) : State :=
  { ready E with hosts := [{ ops := [], held := some (0x008#12, 4#32), seen := [] }], sched := [.host 0] }

theorem witness_WriteToABusyEngineIsHeld_again :
    (holding building).sched = [.host 0] ∧
    (holding building).hosts[0]? = some { ops := [], held := some (0x008#12, 4#32), seen := [] } ∧
    (holding building).engines[offEngine 0x008#12]? = some building ∧ building.busy = true ∧
    offReg 0x008#12 ≤ 0x48 ∧ offReg 0x008#12 ≠ 0x3C ∧ (0x008#12).toNat % 4 = 0 := by decide

theorem witness_HeldWriteLandsOnceIdle :
    (holding idle).sched = [.host 0] ∧
    (holding idle).hosts[0]? = some { ops := [], held := some (0x008#12, 4#32), seen := [] } ∧
    (holding idle).engines[offEngine 0x008#12]? = some idle ∧ idle.busy = false ∧ (0x008#12).toNat % 4 = 0 := by decide

theorem witness_RegisterWriteStoresInItsEngineOnly :
    HostTurnOf (hosted State.reset (.wr (regOff 0 .src) 5#32)) 0 (agent (.wr (regOff 0 .src) 5#32))
      (.wr (regOff 0 .src) 5#32) [] [] ∧ 0 < 16 ∧ Reg.src ≠ .cmd ∧
    (hosted State.reset (.wr (regOff 0 .src) 5#32)).engines[0]? = some idle ∧ idle.busy = false := by decide

theorem witness_RegistersReadBackWhatIsStored : Reg.src ≠ Reg.status := by decide

theorem witness_RegisterReadHasNoSideEffect :
    HostTurnOf (hosted (ready building) (.rd (regOff 0 .status))) 0 (agent (.rd (regOff 0 .status)))
      (.rd (regOff 0 .status)) [] [] ∧ 0 < 16 ∧
    (hosted (ready building) (.rd (regOff 0 .status))).engines[0]? = some building := by decide

/-- The reserved offsets 0x3C, 0x4C and 0xFC of a busy engine, and the block of engine 1, which REF has not. -/
theorem witness_ReservedOffsetsReadZeroIgnoreWrites : ∀ off ∈ [0x03C#12, 0x04C#12, 0x0FC#12, 0x100#12],
    off.toNat % 4 = 0 ∧
    ((ready building).engines[offEngine off]? = none ∨ offReg off = 0x3C ∨ 0x4C ≤ offReg off) ∧
    HostTurnOf (hosted (ready building) (.rd off)) 0 (agent (.rd off)) (.rd off) [] [] ∧
    HostTurnOf (hosted (ready building) (.wr off 7#32)) 0 (agent (.wr off 7#32)) (.wr off 7#32) [] [] := by decide

theorem witness_CapReadsTheBuildParameters : Config.ref.ScalarsOk := ref_scalarsOk

theorem witness_UnalignedRegisterAccessIsRefused : (0x006#12).toNat % 4 ≠ 0 ∧
    HostTurnOf (hosted State.reset (.rd 0x006#12)) 0 (agent (.rd 0x006#12)) (.rd 0x006#12) [] [] ∧
    HostTurnOf (hosted State.reset (.wr 0x006#12 0#32)) 0 (agent (.wr 0x006#12 0#32)) (.wr 0x006#12 0#32) [] [] := by
  decide

theorem witness_WaitPollsUntilIdle : ∀ E ∈ [idle, building],
    HostTurnOf (hosted (ready E) (.wait 0#4)) 0 (agent (.wait 0#4)) (.wait 0#4) [] [] ∧
    (hosted (ready E) (.wait 0#4)).engines[(0#4).toNat]? = some E := by decide

/-! ### Witnesses: SETUP -/

theorem witness_SetupIsAccepted : IdleAtPort State.reset idle ∧ bitField idle.params.fmt 0 8 = 16 ∧
    bitField idle.params.fmt 8 8 = 16 ∧ bitField idle.params.fmt 16 16 = 0 ∧ Config.ref.VALID idle.params = true := by
  decide

/-- Each of the four causes: `FMT_IN`, `FMT_OUT`, bits 31:16, and a hue of 12. -/
theorem witness_SetupOutOfRangeRaisesConfigurationError :
    (IdleAtPort (ready { idle with params := { idle.params with fmt := 0x00001008#32 } })
        { idle with params := { idle.params with fmt := 0x00001008#32 } } ∧ bitField 0x00001008#32 0 8 ≠ 16) ∧
    (IdleAtPort (ready { idle with params := { idle.params with fmt := 0x00001110#32 } })
        { idle with params := { idle.params with fmt := 0x00001110#32 } } ∧ bitField 0x00001110#32 8 8 ≠ 16) ∧
    (IdleAtPort (ready { idle with params := { idle.params with fmt := 0x00011010#32 } })
        { idle with params := { idle.params with fmt := 0x00011010#32 } } ∧ bitField 0x00011010#32 16 16 ≠ 0) ∧
    (IdleAtPort (ready { idle with params := { idle.params with hue := 12#32 } })
        { idle with params := { idle.params with hue := 12#32 } } ∧
      Config.ref.VALID { idle.params with hue := 12#32 } = false) := by decide

/-- Engine 1 completes a SETUP while engine 0 runs a BLIT on the active bank. -/
def twoEngines : State := { ready idle with engines := [blitting, building], sched := [.engine 1] }

theorem witness_SetupCompletionPublishesTheTable : EngineTurnOf twoEngines 1 building [] ∧ building.RunsSetup ∧
    ∀ (e : Nat) (F : Engine), twoEngines.engines[e]? = some F → F.RunsBlit → F.lbank = twoEngines.active := by
  refine ⟨by decide, by decide, ?_⟩
  intro e F hF hr
  have hm : F ∈ [blitting, building] := List.mem_of_getElem? hF
  simp only [List.mem_cons, List.not_mem_nil, or_false] at hm
  rcases hm with rfl | rfl
  · rfl
  · exact absurd hr (by decide)

/-- The same with the other bank active: engine 0's BLIT reads the shadow bank. -/
theorem witness_SetupWaitsForTheShadowBank :
    EngineTurnOf { twoEngines with active := true } 1 building [] ∧ building.RunsSetup ∧
    ({ twoEngines with active := true } : State).engines[0]? = some blitting ∧ blitting.RunsBlit ∧
    blitting.lbank = !true := by decide

/-! ### Witnesses: LOOKUP -/

/-- The largest legal operands (R156 (a)). -/
theorem witness_LookupReadsOneTapOfTheActiveBank : IdleAtPort (ready idle) idle ∧ (ready idle).tvalid = true ∧
    65535 < Config.ref.NCLASS ∧ 2 < Config.ref.P ∧ 4 < Config.ref.T := by decide

theorem witness_LookupOutOfRangeRaisesIllegalCommand : IdleAtPort (ready idle) idle ∧ Config.ref.NCLASS ≤ 65536 ∧
    Config.ref.P ≤ 3 ∧ Config.ref.T ≤ 5 := by decide

theorem witness_LookupWithoutTableRaisesUninitializedTable : IdleAtPort State.reset idle ∧
    State.reset.tvalid = false ∧ 65535 < Config.ref.NCLASS ∧ 2 < Config.ref.P ∧ 4 < Config.ref.T := by decide

theorem witness_LookupWorkedExample : IdleAtPort (ready idle) idle ∧ (ready idle).tvalid = true ∧
    (ready idle).bank (ready idle).active = .image Config.ref.NEUTRAL := by decide

/-! ### Witnesses: acceptance -/

theorem witness_BlitIsAccepted : IdleAtPort (ready oneRow) oneRow ∧ (ready oneRow).tvalid = true ∧
    oneRow.srcLen = oneRow.dstLen := by decide

theorem witness_BlitWithoutTableRaisesUninitializedTable : IdleAtPort State.reset idle ∧
    State.reset.tvalid = false := by decide

/-- 64 pixels against 63 (R163). -/
theorem witness_BlitOfUnequalLengthsRaisesLengthMismatch :
    IdleAtPort (ready { idle with srcLen := 64#16, dstLen := 63#16 }) { idle with srcLen := 64#16, dstLen := 63#16 } ∧
    64#16 ≠ 63#16 := by decide

theorem witness_AcceptanceFrame : ∀ i ∈ [Instr.setup, .blit, .lookup 65535 2 4],
    (exec i (ready oneRow) matches .next _) ∧ (ready oneRow).engines[(ready oneRow).port]? = some oneRow := by decide

theorem witness_AnErrorChangesOnlyErrAndItsStickyBit :
    (ready idle).engines[0]? = some idle ∧ idle.busy = false ∧
    acceptCommand (execIn Config.ref) 0 0#32 (ready idle) =
      .next ((ready idle).setEngine 0 { idle with err := .illegalCommand, sIll := true }) ∧
    ErrCode.illegalCommand ≠ .none :=
  ⟨by decide, rfl, rfl, by decide⟩

theorem witness_CommandWithoutAnIdleEngineHasNoEffect :
    (∀ E, (ready building).engines[(ready building).port]? = some E → E.busy = true) ∧
    ∀ E, ({ ready idle with port := 1 } : State).engines[1]? = some E → E.busy = true := by
  constructor
  · rintro E h; cases h; rfl
  · rintro E h; cases h

/-! ### Witnesses: the steps of a BLIT -/

/-- It is engine 0's turn. -/
def turning (E : Engine) : State := { ready E with sched := [.engine 0] }

theorem witness_PixelStepDoesTheFiveSubActions : EngineTurnOf (turning blitting) 0 blitting [] ∧ blitting.RunsBlit ∧
    blitting.col < blitting.srcLen.toNat ∧
    admitted16 Config.ref (blitting.src + BitVec.ofNat 32 (2 * blitting.col)) = true ∧
    (0 ≤ blitting.wb ∧ blitting.wb < blitting.srcLen.toNat →
      admitted16 Config.ref (blitting.dst + BitVec.ofNat 32 (2 * blitting.wb.toNat)) = true) ∧
    List.zipWith Yiq.add blitting.w ((List.range Config.ref.T).map ((turning blitting).tap Config.ref blitting.lbank
      (Config.ref.CLASSIFY (Config.ref.ADJ (Memory.read16 (turning blitting).mem
        (blitting.src + BitVec.ofNat 32 (2 * blitting.col))))) blitting.lph)) =
      Yiq.zero :: List.replicate 4 Yiq.zero := by decide

/-- The flush step that writes the last column. -/
def flushing : Engine := { blitting with col := 1, wb := 0 }

theorem witness_FlushStepRetiresOneSlot : EngineTurnOf (turning flushing) 0 flushing [] ∧ flushing.RunsBlit ∧
    flushing.col = flushing.srcLen.toNat ∧ flushing.wb < flushing.srcLen.toNat ∧
    (0 ≤ flushing.wb → admitted16 Config.ref (flushing.dst + BitVec.ofNat 32 (2 * flushing.wb.toNat)) = true) ∧
    flushing.w = Yiq.zero :: List.replicate 4 Yiq.zero := by decide

def finishing : Engine := { blitting with col := 1, wb := 1 }

theorem witness_BlitCompletionReturnsThePhase : EngineTurnOf (turning finishing) 0 finishing [] ∧ finishing.RunsBlit ∧
    finishing.col = finishing.srcLen.toNat ∧ (finishing.srcLen.toNat : Int) ≤ finishing.wb := by decide

/-- REF on a platform that backs nothing: stuck in the read, and stuck in the write of a flush step. -/
theorem witness_UnbackedAccessLeavesTheEngineStuck :
    (EngineTurnOf (turning blitting) 0 blitting [] ∧ blitting.RunsBlit ∧ blitting.col < blitting.srcLen.toNat ∧
      admitted16 { Config.ref with ADMITS := fun _ => false } (blitting.src + BitVec.ofNat 32 (2 * blitting.col)) =
        false) ∧
    (EngineTurnOf (turning flushing) 0 flushing [] ∧ flushing.RunsBlit ∧ 0 ≤ flushing.wb ∧
      flushing.wb < flushing.srcLen.toNat ∧
      admitted16 { Config.ref with ADMITS := fun _ => false }
        (flushing.dst + BitVec.ofNat 32 (2 * flushing.wb.toNat)) = false) := by decide

theorem witness_EngineStepFrame : EngineTurnOf (turning blitting) 0 blitting [] ∧
    (stepIn Config.ref (turning blitting) matches .next _) := by decide

/-! ### Witnesses: the row -/

theorem oneRow_disjoint (E : Engine) (h : E.src = 0#32) (h8 : 8#32 ≤ E.dst) (h9 : E.dst ≤ 64#32)
    (hl : E.rowLen = 1) : E.RowsDisjoint := by
  rintro a ⟨⟨n, hn, hs⟩, ⟨m, hm, hd⟩⟩
  rw [hl] at hn hm
  have hn0 : n = 0 := by omega
  have hm0 : m = 0 := by omega
  subst hn0 hm0
  simp only [inPixel, pixelAddr, h] at hs hd
  rcases hs with rfl | rfl <;> rcases hd with hd | hd <;> bv_omega

theorem refAdmits (E : Engine) : E.RowsAdmitted Config.ref := fun _ _ => rfl

/-- The same row with its output at address 16. -/
def otherRow : Engine := { oneRow with dst := 16#32 }

theorem witness_BlitComputesTheClosedForm : Config.ref.ScalarsOk ∧ IdleAtPort (turning oneRow) oneRow ∧
    (turning oneRow).tvalid = true ∧ oneRow.srcLen = oneRow.dstLen ∧ oneRow.phase < Config.ref.P ∧
    Memory.wf (turning oneRow).mem = true ∧ oneRow.RowsDisjoint ∧ oneRow.RowsAdmitted Config.ref ∧
    (turning oneRow).sched = [.engine (turning oneRow).port] :=
  ⟨ref_scalarsOk, by decide, rfl, rfl, by decide, rfl,
    oneRow_disjoint oneRow rfl (by decide) (by decide) rfl, refAdmits _, rfl⟩

/-- The first and the last number of turns of a running row: 0 and N + LEFT. -/
theorem witness_RunningRowIsWrittenUpToTheWindowBase : Config.ref.ScalarsOk ∧ IdleAtPort (turning oneRow) oneRow ∧
    (turning oneRow).tvalid = true ∧ oneRow.srcLen = oneRow.dstLen ∧ oneRow.phase < Config.ref.P ∧
    Memory.wf (turning oneRow).mem = true ∧ oneRow.RowsDisjoint ∧ oneRow.RowsAdmitted Config.ref ∧
    0 < blitSteps Config.ref oneRow ∧ 3 < blitSteps Config.ref oneRow :=
  ⟨ref_scalarsOk, by decide, rfl, rfl, by decide, rfl,
    oneRow_disjoint oneRow rfl (by decide) (by decide) rfl, refAdmits _, by decide, by decide⟩

/-- Engine 0 runs the row; a host agent reads STATUS between its first two steps. -/
def interleaved : State :=
  { ready blitting with
    hosts := [agent (.rd 0x004#12)]
    sched := [.engine 0, .host 0, .engine 0, .engine 0, .engine 0] }

/-- The turns before the last one. -/
def turnsBefore : List Agent := [.engine 0, .host 0, .engine 0, .engine 0]

theorem witness_BlitEndsInEveryInterleaving : Config.ref.ScalarsOk ∧
    interleaved.engines[0]? = some (oneRow.startBlit Config.ref interleaved.active) ∧ oneRow.phase < Config.ref.P ∧
    oneRow.RowsAdmitted Config.ref ∧ interleaved.sched = turnsBefore ++ .engine 0 :: [] ∧
    Agent.reset ∉ turnsBefore ∧ turnsBefore.count (.engine 0) = oneRow.rowLen + Config.ref.LEFT ∧
    ∃ t, runIn Config.ref (turnsBefore.length + 1) interleaved = .next t :=
  ⟨ref_scalarsOk, rfl, by decide, refAdmits _, rfl, by decide, by decide, _, rfl⟩

/-- `s` after `k` steps. -/
def after (s : State) (k : Nat) : State :=
  match runIn Config.ref k s with
  | .next t => t
  | _ => s

theorem interleaved_duties : ∀ k u v, k < turnsBefore.length → runIn Config.ref k interleaved = .next u →
    stepIn Config.ref u = .next v → (∀ l, u.sched ≠ .engine 0 :: l) →
    ∀ a : Word, inRow oneRow.src oneRow.rowLen a ∨ inRow oneRow.dst oneRow.rowLen a →
      Memory.read v.mem a.toNat = Memory.read u.mem a.toNat := by
  intro k u v hk hu hv hne a _
  have hu' : u = after interleaved k := by rw [after, hu]
  have hk4 : k < 4 := hk
  subst hu'
  interval_cases k
  · exact absurd rfl (hne _)
  · have h : stepIn Config.ref (after interleaved 1) = .next (after interleaved 2) := rfl
    rw [h] at hv
    cases hv
    rfl
  · exact absurd rfl (hne _)
  · exact absurd rfl (hne _)

theorem witness_BlitComputesTheClosedFormInEveryInterleaving : Memory.wf interleaved.mem = true ∧
    oneRow.RowsDisjoint ∧
    ∀ k u v, k < turnsBefore.length → runIn Config.ref k interleaved = .next u → stepIn Config.ref u = .next v →
      (∀ l, u.sched ≠ .engine 0 :: l) → ∀ a : Word, inRow oneRow.src oneRow.rowLen a ∨ inRow oneRow.dst oneRow.rowLen a →
        Memory.read v.mem a.toNat = Memory.read u.mem a.toNat :=
  ⟨rfl, oneRow_disjoint oneRow rfl (by decide) (by decide) rfl, interleaved_duties⟩

/-- The same row, its output elsewhere, with no other agent, read through a table built from other parameters whose taps
are the same: no tap depends on `P_FMT`. -/
def alone : State :=
  { ready (otherRow.startBlit Config.ref false) with
    kt0 := .image { Config.ref.NEUTRAL with fmt := 0#32 }
    sched := List.replicate 4 (.engine 0) }

theorem alone_duties : ∀ k u v, k < (List.replicate 3 (Agent.engine 0)).length → runIn Config.ref k alone = .next u →
    stepIn Config.ref u = .next v → (∀ l, u.sched ≠ .engine 0 :: l) →
    ∀ a : Word, inRow otherRow.src otherRow.rowLen a ∨ inRow otherRow.dst otherRow.rowLen a →
      Memory.read v.mem a.toNat = Memory.read u.mem a.toNat := by
  intro k u v hk hu _ hne
  have hu' : u = after alone k := by rw [after, hu]
  have hk3 : k < 3 := hk
  subst hu'
  interval_cases k <;> exact absurd rfl (hne _)

theorem witness_BlitOutputDependsOnlyOnRowTableAndPhase : Config.ref.ScalarsOk ∧
    BlitRun Config.ref interleaved 0 oneRow turnsBefore (after interleaved 5) ∧
    BlitRun Config.ref alone 0 otherRow (List.replicate 3 (.engine 0)) (after alone 4) ∧
    oneRow.rowLen = otherRow.rowLen ∧ oneRow.phase = otherRow.phase ∧
    (∀ c p k, c < Config.ref.NCLASS → p < Config.ref.P → k < Config.ref.T →
      interleaved.tap Config.ref interleaved.active c p k = alone.tap Config.ref alone.active c p k) ∧
    ∀ n, n < oneRow.rowLen → inputPixel interleaved.mem oneRow n = inputPixel alone.mem otherRow n :=
  ⟨ref_scalarsOk,
    ⟨rfl, by decide, rfl, oneRow_disjoint oneRow rfl (by decide) (by decide) rfl, refAdmits _, ⟨[], rfl⟩, by decide,
      by decide, interleaved_duties, rfl⟩,
    ⟨rfl, by decide, rfl, oneRow_disjoint otherRow rfl (by decide) (by decide) rfl, refAdmits _, ⟨[], rfl⟩, by decide,
      by decide, alone_duties, rfl⟩,
    rfl, rfl, fun _ _ _ _ _ _ => rfl, fun _ _ => rfl⟩

/-- A configuration with a phase cycle of 1. -/
def onePhase : Config := { Config.ref with P := 1, STEP := 0 }

/-- A flat row of 5 pixels has one interior column of `onePhase`, column 2; with one phase the flat-field constraint holds
of itself. -/
theorem witness_InteriorColumnOfAFlatRow : onePhase.ScalarsOk ∧ 0 < onePhase.P ∧
    (∀ n, n < 5 → onePhase.CLASSIFY (onePhase.ADJ ((fun _ => 0xFFFF#16) n)) = 65535) ∧
    onePhase.RIGHT ≤ 2 ∧ 2 + onePhase.LEFT < 5 ∧ onePhase.FlatField ∧ onePhase.VALID Config.ref.NEUTRAL = true := by
  refine ⟨{ ref_scalarsOk with P_pos := by decide, P_le := by decide, STEP_lt := by decide }, by decide,
    fun _ _ => rfl, by decide, by decide, ?_, by decide⟩
  intro q c a a' _ _ ha ha'
  have h : a = 0 := Nat.lt_one_iff.1 ha
  have h' : a' = 0 := Nat.lt_one_iff.1 ha'
  rw [h, h']

/-- A row of 8 with one white pixel at the first position, the rest black (R183): the last column its kernel reaches,
and the next. -/
theorem witness_SinglePixelAtTheLeftBoundary : Config.ref.ScalarsOk ∧ 0 < Config.ref.P ∧ Config.ref.RIGHT < 8 ∧
    Config.ref.RIGHT + 1 < 8 ∧
    ∀ n p t, 0 < n → n < 8 → p < Config.ref.P → t < Config.ref.T →
      (Bank.image Config.ref.NEUTRAL).tap Config.ref
        (Config.ref.CLASSIFY (Config.ref.ADJ ((fun n => if n = 0 then 0xFFFF#16 else 0x0000#16) n))) p t = Yiq.zero := by
  refine ⟨ref_scalarsOk, by decide, by decide, by decide, ?_⟩
  intro n p t hn _ hp ht
  have hp3 : p < 3 := hp
  have ht5 : t < 5 := ht
  have hn0 : n ≠ 0 := by omega
  simp only [hn0, if_false]
  interval_cases p <;> interval_cases t <;> decide

/-! ### Witnesses: the table and the whole machine -/

theorem witness_LatchedBankIsNeverWritten : twoEngines.engines[0]? = some blitting ∧ blitting.RunsBlit ∧
    (∀ rest, twoEngines.sched ≠ .reset :: rest) ∧ (stepIn Config.ref twoEngines matches .next _) :=
  ⟨by decide, by decide, fun rest h => by simp [twoEngines] at h, by decide⟩

theorem witness_BusyEngineIsNotDisturbed : twoEngines.engines[0]? = some blitting ∧ blitting.busy = true ∧
    (∀ rest, twoEngines.sched ≠ .reset :: rest) ∧ (∀ rest, twoEngines.sched ≠ .engine 0 :: rest) ∧
    (stepIn Config.ref twoEngines matches .next _) :=
  ⟨by decide, by decide, fun rest h => by simp [twoEngines] at h, fun rest h => by simp [twoEngines] at h, by decide⟩

/-- Both commands end. -/
theorem witness_BusyFallsOnlyAtCompletion : ∀ E ∈ [building, finishing],
    (turning E).engines[0]? = some E ∧ E.busy = true ∧
    (engineOf (stepIn Config.ref (turning E)) 0).map (·.busy) = some false := by decide

theorem witness_TableChangesOnlyByPublishOrReset :
    stepIn Config.ref twoEngines matches .next { active := true, tvalid := true, .. } := by decide

theorem witness_HostStepFrame :
    HostTurnOf (hosted (ready idle) (.mw 6#32 0x1234#16)) 0 (agent (.mw 6#32 0x1234#16)) (.mw 6#32 0x1234#16) [] [] ∧
    (stepIn Config.ref (hosted (ready idle) (.mw 6#32 0x1234#16)) matches .next _) := by decide

/-- A write across the top of the address space. -/
theorem witness_PixelMemoryIsLittleEndian :
    HostTurnOf (hosted (ready idle) (.mw 0xFFFFFFFF#32 0x1234#16)) 0 (agent (.mw 0xFFFFFFFF#32 0x1234#16))
      (.mw 0xFFFFFFFF#32 0x1234#16) [] [] ∧
    Memory.wf (hosted (ready idle) (.mw 0xFFFFFFFF#32 0x1234#16)).mem = true ∧
    admitted16 Config.ref 0xFFFFFFFF#32 = true ∧
    (stepIn Config.ref (hosted (ready idle) (.mw 0xFFFFFFFF#32 0x1234#16)) matches .next
      { mem := [(0, 0x12#8), (0xFFFFFFFF, 0x34#8)], .. }) := by decide

theorem witness_ResetStepDiscardsEverythingButMemory :
    ({ holding building with sched := [.reset] } : State).sched = [.reset] := by decide

theorem witness_ResetMeetsTheInvariant : Config.ref.ScalarsOk := ref_scalarsOk

/-- With a running BLIT the state meets the invariant, whatever agents stand around it. -/
theorem running_ok (hs : List HostAgent) (l : List Agent) :
    ({ ready blitting with hosts := hs, sched := l } : State).Ok Config.ref := by
  have only : ∀ (e : Nat) (E : Engine), [blitting][e]? = some E → E = blitting := by
    intro e E hE
    have hm : E ∈ [blitting] := List.mem_of_getElem? hE
    simpa using hm
  have table : (Bank.image Config.ref.NEUTRAL).isTable Config.ref := ⟨Config.ref.NEUTRAL, rfl, by decide⟩
  refine ⟨rfl, ?_, rfl, fun _ => table, ?_⟩
  · intro e E hE
    rw [only e E hE]
    exact ⟨by decide, by decide, by decide, fun _ => rfl, nofun,
      fun _ _ => ⟨rfl, by decide, by decide, by decide, by decide, by decide⟩⟩
  · intro e E hE _ _
    rw [only e E hE]
    exact ⟨rfl, table⟩

/-- A state with a running BLIT meets the invariant, and a step from it answers a next state. -/
theorem witness_EveryStepKeepsTheInvariant : (turning blitting).Ok Config.ref ∧
    (step (turning blitting) matches .next _) :=
  ⟨running_ok [] [.engine 0], by decide⟩

/-! ### Witnesses: REF -/

theorem witness_RefEnergyIsExact : 0 < 3 ∧ 2 < 3 := by decide

theorem witness_RefFlatFieldIsExact : 0 < 3 ∧ 2 < 3 := by decide

/-- A host writes the input row of a running BLIT. -/
theorem witness_RefWindowStaysIn32Bits :
    (hosted (ready blitting) (.mw 0#32 0xFFFF#16)).Ok Config.ref ∧
    (hosted (ready blitting) (.mw 0#32 0xFFFF#16)).WindowsOk Config.ref ∧
    (stepIn Config.ref (hosted (ready blitting) (.mw 0#32 0xFFFF#16)) matches .next _) ∧
    (hosted (ready blitting) (.mw 0#32 0xFFFF#16)).engines[0]? = some blitting ∧ blitting.RunsBlit := by
  refine ⟨running_ok _ _, ?_, by decide, rfl, by decide⟩
  intro e E hE _ _
  have hm : E ∈ [blitting] := List.mem_of_getElem? hE
  rw [List.mem_singleton.1 hm]
  exact slotsOk_startBlit ref_scalarsOk _ _ _ _

end Sys2Proof.Tests
end

/-!
The windows of the running BLITs under every step of every agent: `State.WindowsOk` holds after reset and is kept
(spec 42_blit R161, R172, R174; 40_setup R134).
-/

namespace Sys2Proof.Proofs

open Sys2Proof Sys2Proof.Machine Sys2Proof.Laws

variable {C : Config} {s t : State} {e : Nat} {E F : Engine}

/-! ### The slots of one engine -/

theorem slotsOk_mono {lo lo' : Nat} (hl : lo' ≤ lo) (h : E.SlotsOk C s lo) : E.SlotsOk C s lo' :=
  fun j a ha => partialSum_mono (by omega) (h j a ha)

/-- The slots speak of the engine through its window and its latched bank alone. -/
theorem slotsOk_of_window {lo : Nat} (hw : F.w = E.w) (hb : F.lbank = E.lbank) (h : E.SlotsOk C s lo) :
    F.SlotsOk C s lo := by
  intro j a ha
  rw [hb]
  exact h j a (hw ▸ ha)

/-- The running phase of a BLIT is a phase (R44). -/
theorem lph_lt_of_blitOk (hC : C.ScalarsOk) (h : E.BlitOk C) : E.lph < C.P :=
  h.lph ▸ Nat.mod_lt _ hC.P_pos

/-- Inside a pixel step, once the kernel is added (R172). -/
theorem slotsOk_consumed_of_ok (hC : C.ScalarsOk) (hs : s.Ok C) (hw : s.WindowsOk C) (hE : s.engines[e]? = some E)
    (hr : E.RunsBlit) : (E.consumed C s).SlotsOk C s 0 :=
  slotsOk_consumed hC (hw e E hE hr.1 hr.2) (lph_lt_of_blitOk hC ((hs.engines e E hE).blit hr.1 hr.2))

/-! ### The windows of all engines -/

/-- An update beside the engines that leaves the bank of every running BLIT. -/
theorem windowsOk_of_latched (h : s.WindowsOk C) (he : t.engines = s.engines)
    (hb : ∀ (e : Nat) (E : Engine), s.engines[e]? = some E → E.RunsBlit → t.bank E.lbank = s.bank E.lbank) :
    t.WindowsOk C := by
  intro e E hE h1 h2
  rw [he] at hE
  exact slotsOk_of_bank (h e E hE h1 h2) (hb e E hE ⟨h1, h2⟩)

theorem windowsOk_of_same (h : s.WindowsOk C) (he : t.engines = s.engines) (hb : ∀ b, t.bank b = s.bank b) :
    t.WindowsOk C :=
  windowsOk_of_latched h he fun _ _ _ _ => hb _

theorem windowsOk_setEngine (h : s.WindowsOk C) (hF : F.RunsBlit → F.SlotsOk C s 1) :
    (s.setEngine e F).WindowsOk C := by
  intro e' E' hE' h1 h2
  rw [setEngine_engines, List.getElem?_set] at hE'
  split at hE'
  · split at hE'
    · cases hE'
      exact slotsOk_of_bank (hF ⟨h1, h2⟩) (setEngine_bank ..)
    · cases hE'
  · exact slotsOk_of_bank (h e' E' hE' h1 h2) (setEngine_bank ..)

/-- An update that leaves what a running BLIT rests on. -/
theorem windowsOk_setEngine_of_window (h : s.WindowsOk C) (hE : s.engines[e]? = some E) (hbusy : F.busy = E.busy)
    (hlop : F.lop = E.lop) (hbank : F.lbank = E.lbank) (hw : F.w = E.w) : (s.setEngine e F).WindowsOk C :=
  windowsOk_setEngine h fun ⟨h1, h2⟩ => slotsOk_of_window hw hbank (h e E hE (hbusy ▸ h1) (hlop ▸ h2))

theorem windowsOk_afterReset (C : Config) (n : Nat) (m : Memory) (hs : List HostAgent) (l : List Agent) :
    (State.afterReset C n m hs l).WindowsOk C := by
  intro e E hE hb _
  have hE' : E = Engine.reset C := List.eq_of_mem_replicate (List.mem_of_getElem? hE)
  rw [hE', engineReset_busy] at hb
  cases hb

/-! ### A command and a register write -/

/-- A command accepted on an idle engine starts a BLIT with a window of zeros, or no BLIT at all. -/
theorem slotsOk_of_accepted (hC : C.ScalarsOk) (hb : E.busy = false) (h : Accepted C s E F) (hr : F.RunsBlit) :
    F.SlotsOk C s 1 := by
  obtain ⟨hbusy, hlop⟩ := hr
  cases h with
  | error k _ => rw [raised_busy, hb] at hbusy; cases hbusy
  | setup _ => cases hlop
  | blit _ _ => exact slotsOk_startBlit hC s s.active E 1
  | lookup y i q _ => rw [hb] at hbusy; cases hbusy

theorem windowsOk_execIn (hC : C.ScalarsOk) {i : Instr} (h : s.WindowsOk C) (ht : execIn C i s = .next t) :
    t.WindowsOk C := by
  rcases execIn_cases C i s with ⟨h', -⟩ | ⟨E, F, -, hb, hF, h'⟩
  · rw [h'] at ht; cases ht; exact h
  · rw [h'] at ht; cases ht; exact windowsOk_setEngine h (slotsOk_of_accepted hC hb hF)

theorem windowsOk_regWritten (hC : C.ScalarsOk) {off : BitVec 12} {v : Word} (h : s.WindowsOk C)
    (ht : RegWritten C off v s t) : t.WindowsOk C := by
  cases ht with
  | ignored => exact h
  | illegal E r hE _ _ =>
    rw [raiseError_of_engine _ hE]
    exact windowsOk_setEngine_of_window h hE (raised_busy ..) (raised_lop ..) (raised_lbank ..) (raised_w ..)
  | command E i t _ _ _ hx =>
    exact windowsOk_execIn (s := { s with port := offEngine off }) hC (windowsOk_of_same h rfl fun _ => rfl) hx
  | stored E g hE _ _ =>
    obtain ⟨hbusy, -, hlop, hbank, -, -, -, hw⟩ := writeReg_hidden C E g v
    exact windowsOk_setEngine_of_window h hE hbusy hlop hbank hw

/-! ### The turns of the agents -/

theorem windowsOk_hostTurn (hC : C.ScalarsOk) {n : Nat} (h : s.WindowsOk C) (ht : HostTurn C n s t) :
    t.WindowsOk C := by
  cases ht with
  | wait => exact h
  | agentOnly H => exact windowsOk_of_same h rfl fun _ => rfl
  | memory H a v _ => exact windowsOk_of_same h rfl fun _ => rfl
  | register H off v t _ hr =>
    exact windowsOk_regWritten (s := s.setHost n H) hC (windowsOk_of_same h rfl fun _ => rfl) hr

/-- SETUP's completion step finds no running BLIT on the shadow bank (R134). -/
theorem lbank_eq_active_of_refcnt (h0 : refcnt s (!s.active) = 0) (hE : s.engines[e]? = some E) (hr : E.RunsBlit) :
    E.lbank = s.active := by
  have hn := List.countP_eq_zero.1 h0 E (List.mem_of_getElem? hE)
  simpa [Engine.latches, hr.1, hr.2] using hn

/-- Publishing leaves the bank of every running BLIT. -/
theorem windowsOk_completeSetup (h : s.WindowsOk C) (h0 : refcnt s (!s.active) = 0) :
    (completeSetup e E s).WindowsOk C := by
  refine windowsOk_setEngine (windowsOk_of_latched h (setBank_engines ..) fun e' E' hE' hr => ?_) (by rintro ⟨⟨⟩, -⟩)
  have hbank := completeSetup_bank e E s E'.lbank
  rwa [if_pos (lbank_eq_active_of_refcnt h0 hE' hr)] at hbank

theorem windowsOk_engineTurn (hC : C.ScalarsOk) (hs : s.Ok C) (h : s.WindowsOk C) (ht : EngineTurn C e s t) :
    t.WindowsOk C := by
  cases ht with
  | idle => exact h
  | publish E _ _ _ h0 => exact windowsOk_completeSetup h h0
  | pixel E hE hb hl _ _ =>
    exact windowsOk_setEngine (windowsOk_of_same h rfl fun _ => rfl) fun _ =>
      slotsOk_retired hC (slotsOk_consumed_of_ok hC hs h hE ⟨hb, hl⟩)
  | flush E hE hb hl _ _ _ =>
    exact windowsOk_setEngine (windowsOk_of_same h rfl fun _ => rfl) fun _ =>
      slotsOk_mono (by decide) (slotsOk_retired hC (h e E hE hb hl))
  | complete E _ _ _ _ _ => exact windowsOk_setEngine h (by rintro ⟨⟨⟩, -⟩)

/-- The order of the agents is no part of the invariant. -/
theorem ok_of_sched (hs : s.Ok C) (l : List Agent) : State.Ok C { s with sched := l } :=
  ⟨hs.engines_length, hs.engines, hs.mem, hs.published, hs.latched⟩

/-- Every step, of any agent, keeps the windows of the running BLITs. -/
theorem windowsOk_stepIn (hC : C.ScalarsOk) (hs : s.Ok C) (h : s.WindowsOk C) (ht : stepIn C s = .next t) :
    t.WindowsOk C := by
  have moved (l : List Agent) : State.WindowsOk C { s with sched := l } := windowsOk_of_same h rfl fun _ => rfl
  cases stepIn_cases C s t ht with
  | nobody _ => exact h
  | host n rest t _ hh => exact windowsOk_hostTurn hC (moved _) hh
  | engine e rest t _ he => exact windowsOk_engineTurn hC (ok_of_sched hs _) (moved _) he
  | reset rest _ => exact windowsOk_afterReset C _ _ _ _

end Sys2Proof.Proofs

/-!
The ranges of the reference configuration (spec 45_reference_configuration R218): of a sample, of a tap, and of a sum of
at most one tap from each position. The constants are R218's, but for the carrier, where 512 in place of 478 is enough.
-/

namespace Sys2Proof.Proofs

open Sys2Proof Sys2Proof.Laws Sys2Proof.Ref

/-! ### Bounds of absolute values -/

theorem abs_mul_le_mul {a b A B : Int} (ha : |a| ≤ A) (hb : |b| ≤ B) : |a * b| ≤ A * B := by
  rw [abs_mul]
  exact mul_le_mul ha hb (abs_nonneg b) ((abs_nonneg a).trans ha)

/-- Each value of a trigonometric or filter table is bounded as its entries are. -/
theorem abs_getD_le {l : List Int} {B : Int} (h : ∀ x ∈ (0 :: l), |x| ≤ B) (k : Nat) : |l.getD k 0| ≤ B := by
  rw [List.getD_eq_getElem?_getD]
  cases hk : l[k]? with
  | none => exact h 0 List.mem_cons_self
  | some x => exact h x (List.mem_cons_of_mem _ (List.mem_of_getElem? hk))

theorem abs_sum_map_le {α : Type} (l : List α) (f B : α → Int) (h : ∀ a ∈ l, |f a| ≤ B a) :
    |(l.map f).sum| ≤ (l.map B).sum := by
  induction l with
  | nil => simp
  | cons a l ih =>
    simp only [List.map_cons, List.sum_cons]
    exact (abs_add_le _ _).trans
      (add_le_add (h a List.mem_cons_self) (ih fun b hb => h b (List.mem_cons_of_mem _ hb)))

theorem abs_asr_le {a B : Int} {k : Nat} (h : |a| ≤ B * 2 ^ k) : |asr a k| ≤ B := by
  have hk : (0 : Int) < 2 ^ k := by positivity
  obtain ⟨hlo, hhi⟩ := abs_le.1 h
  refine abs_le.2 ⟨?_, ?_⟩
  · exact (Int.le_ediv_iff_mul_le hk).2 (by linarith)
  · exact Int.ediv_le_of_le_mul hk hhi

theorem fitsSigned_of_abs_lt {v : Int} (h : |v| < 2 ^ 31) : fitsSigned 32 v := by
  obtain ⟨hlo, hhi⟩ := abs_lt.1 h
  exact ⟨hlo.le, hhi⟩

theorem abs_cos12_le (k : Nat) : |cos12 k| ≤ 256 := abs_getD_le (by decide) k

theorem abs_sin12_le (k : Nat) : |sin12 k| ≤ 256 := abs_getD_le (by decide) k

/-! ### A sample -/

/-- Every channel is an 8-bit value. -/
structure IsByteRgb (c : Rgb) : Prop where
  r_nonneg : 0 ≤ c.r
  r_le : c.r ≤ 255
  g_nonneg : 0 ≤ c.g
  g_le : c.g ≤ 255
  b_nonneg : 0 ≤ c.b
  b_le : c.b ≤ 255

theorem widen5_le {v : Nat} (h : v < 2 ^ 5) : widen5 v ≤ 255 := by unfold widen5; omega

theorem widen6_le {v : Nat} (h : v < 2 ^ 6) : widen6 v ≤ 255 := by unfold widen6; omega

theorem isByteRgb_expand (px : Pixel) : IsByteRgb (expand px) where
  r_nonneg := Int.natCast_nonneg _
  r_le := Int.ofNat_le.2 (widen5_le (Nat.mod_lt _ (by decide)))
  g_nonneg := Int.natCast_nonneg _
  g_le := Int.ofNat_le.2 (widen6_le (Nat.mod_lt _ (by decide)))
  b_nonneg := Int.natCast_nonneg _
  b_le := Int.ofNat_le.2 (widen5_le (Nat.mod_lt _ (by decide)))

theorem yiqOf_ranges {c : Rgb} (h : IsByteRgb c) :
    0 ≤ (yiqOf c).y ∧ (yiqOf c).y ≤ 65280 ∧ |(yiqOf c).i| ≤ 39015 ∧ |(yiqOf c).q| ≤ 34170 := by
  obtain ⟨_, _, _, _, _, _⟩ := h
  simp only [yiqOf, abs_le]
  omega

/-- What a valid parameter block bounds (R204, R206). -/
structure ParamsInRange (q : Params) : Prop where
  sat_le : q.sat.toNat ≤ 512
  con_le : q.con.toNat ≤ 512
  bri_ge : -128 ≤ q.bri.toInt
  bri_le : q.bri.toInt ≤ 127
  sharp_le : q.sharp.toNat ≤ 256
  bleed_le : q.bleed.toNat ≤ 256

theorem paramsInRange_of_valid {q : Params} (h : Config.ref.VALID q = true) : ParamsInRange q := by
  obtain ⟨-, -, hsat, hcon, hlo, hhi, hsharp, hbleed⟩ := of_decide_eq_true h
  exact ⟨hsat, hcon, hlo, hhi, hsharp, hbleed⟩

/-- The ranges of `Y1`, `I1` and `Q1`. -/
structure SampleInRange (s : Yiq) : Prop where
  abs_y : |s.y| ≤ 163072
  abs_i : |s.i| ≤ 146370
  abs_q : |s.q| ≤ 146370

/-- Rotating the hue by 12-entry table values and scaling by the saturation. -/
theorem abs_scaled_rotation_le {sat : Nat} {a b c d : Int} (hsat : sat ≤ 512) (ha : |a| ≤ 39015) (hb : |b| ≤ 34170)
    (hc : |c| ≤ 256) (hd : |d| ≤ 256) : |asr (sat * (a * c + b * d)) 16| ≤ 146370 := by
  have hs : |(sat : Int)| ≤ 512 := by rw [Nat.abs_cast]; exact_mod_cast hsat
  have hsum : |a * c + b * d| ≤ 39015 * 256 + 34170 * 256 :=
    (abs_add_le _ _).trans (add_le_add (abs_mul_le_mul ha hc) (abs_mul_le_mul hb hd))
  exact abs_asr_le ((abs_mul_le_mul hs hsum).trans (by norm_num))

theorem sampleInRange_decodePixel {q : Params} (hq : ParamsInRange q) (px : Pixel) :
    SampleInRange (decodePixel px q) := by
  obtain ⟨hy0, hy1, hi, hq0⟩ := yiqOf_ranges (isByteRgb_expand px)
  have hcos := abs_cos12_le q.hue.toNat
  have hsin := abs_sin12_le q.hue.toNat
  refine ⟨?_, ?_, ?_⟩
  · have hcon : |(q.con.toNat : Int)| ≤ 512 := by rw [Nat.abs_cast]; exact_mod_cast hq.con_le
    have hmul := abs_mul_le_mul hcon (abs_le.2 ⟨by omega, hy1⟩)
    have hasr : |asr (q.con.toNat * (yiqOf (expand px)).y) 8| ≤ 130560 := abs_asr_le (hmul.trans (by norm_num))
    have hnonneg : 0 ≤ asr (q.con.toNat * (yiqOf (expand px)).y) 8 :=
      Int.ediv_nonneg (mul_nonneg (Int.natCast_nonneg _) hy0) (by decide)
    have hlo := hq.bri_ge
    have hhi := hq.bri_le
    simp only [decodePixel, abs_le] at hasr ⊢
    omega
  · simpa only [decodePixel, sub_eq_add_neg, mul_neg] using
      abs_scaled_rotation_le hq.sat_le hi hq0 hcos (by rwa [abs_neg] : |-sin12 q.hue.toNat| ≤ 256)
  · exact abs_scaled_rotation_le hq.sat_le hi hq0 hsin hcos

theorem abs_carrier_le {s : Yiq} (h : SampleInRange s) (p : Nat) : |carrier s p| ≤ 74941440 :=
  (abs_add_le _ _).trans ((add_le_add (abs_mul_le_mul h.abs_i (abs_cos12_le _))
    (abs_mul_le_mul h.abs_q (abs_sin12_le _))).trans (by norm_num))

/-! ### A tap -/

/-- The largest luma magnitude of tap `t`. -/
def lumaBound (q : Params) (t : Nat) : Int := lumaTap q t * 163072 + |xtalkGain * xtalk t| * 74941440

/-- The largest chroma magnitude of tap `t`. -/
def chromaBound (q : Params) (t : Nat) : Int := chromaTap q t * 146370

theorem getD_nonneg {l : List Int} (h : ∀ x ∈ l, 0 ≤ x) (t : Nat) : 0 ≤ l.getD t 0 := by
  rw [List.getD_eq_getElem?_getD]
  cases ht : l[t]? with
  | none => exact le_rfl
  | some x => exact h x (List.mem_of_getElem? ht)

/-- A blend of two tables of weights, as R210 forms `LY` and `LC`. -/
theorem blend_nonneg {w : Nat} {l m : List Int} (hw : w ≤ 256) (hl : ∀ x ∈ l, 0 ≤ x) (hm : ∀ x ∈ m, 0 ≤ x) (t : Nat) :
    (0 : Int) ≤ (256 - w) * l.getD t 0 + w * m.getD t 0 :=
  add_nonneg (mul_nonneg (by omega) (getD_nonneg hl t)) (mul_nonneg (Int.natCast_nonneg w) (getD_nonneg hm t))

theorem lumaTap_nonneg {q : Params} (hq : ParamsInRange q) (t : Nat) : 0 ≤ lumaTap q t :=
  blend_nonneg hq.sharp_le (by decide) (by decide) t

theorem chromaTap_nonneg {q : Params} (hq : ParamsInRange q) (t : Nat) : 0 ≤ chromaTap q t :=
  blend_nonneg hq.bleed_le (by decide) (by decide) t

theorem lumaBound_nonneg {q : Params} (hq : ParamsInRange q) (t : Nat) : 0 ≤ lumaBound q t :=
  add_nonneg (mul_nonneg (lumaTap_nonneg hq t) (by decide)) (mul_nonneg (abs_nonneg _) (by decide))

theorem chromaBound_nonneg {q : Params} (hq : ParamsInRange q) (t : Nat) : 0 ≤ chromaBound q t :=
  mul_nonneg (chromaTap_nonneg hq t) (by decide)

/-- The weights of a luma kernel sum to 4096, whatever the sharpness (R210). -/
theorem lumaTap_sum (q : Params) : ((List.range 5).map (lumaTap q)).sum = 4096 := by
  have hblur : ((List.range 5).map blurY).sum = 16 := by decide
  have hdelta : ((List.range 5).map delta).sum = 16 := by decide
  unfold lumaTap
  simp only [List.sum_map_add, List.sum_map_mul_left, hblur, hdelta]
  ring

/-- The weights of a chroma kernel sum to 4096, whatever the bleed (R210). -/
theorem chromaTap_sum (q : Params) : ((List.range 5).map (chromaTap q)).sum = 4096 := by
  have hnarrow : ((List.range 5).map narrowC).sum = 16 := by decide
  have hblur : ((List.range 5).map blurC).sum = 16 := by decide
  unfold chromaTap
  simp only [List.sum_map_add, List.sum_map_mul_left, hnarrow, hblur]
  ring

theorem lumaBound_sum (q : Params) : ((List.range 5).map (lumaBound q)).sum = 4096 * 163072 + 4 * 74941440 := by
  have hcrosstalk : ((List.range 5).map fun t => |xtalkGain * xtalk t|).sum = 4 := by decide
  unfold lumaBound
  simp only [List.sum_map_add, List.sum_map_mul_right, lumaTap_sum, hcrosstalk]

theorem chromaBound_sum (q : Params) : ((List.range 5).map (chromaBound q)).sum = 4096 * 146370 := by
  unfold chromaBound
  simp only [List.sum_map_mul_right, chromaTap_sum]

/-- The triple is within the bounds of a tap at position `t`. -/
structure TapInRange (q : Params) (t : Nat) (a : Yiq) : Prop where
  abs_y : |a.y| ≤ lumaBound q t
  abs_i : |a.i| ≤ chromaBound q t
  abs_q : |a.q| ≤ chromaBound q t

theorem tapInRange_zero {q : Params} (hq : ParamsInRange q) (t : Nat) : TapInRange q t Yiq.zero where
  abs_y := lumaBound_nonneg hq t
  abs_i := chromaBound_nonneg hq t
  abs_q := chromaBound_nonneg hq t

theorem tapInRange_gen {q : Params} (hq : ParamsInRange q) (c p t : Nat) : TapInRange q t (Config.ref.gen q c p t) := by
  have hs : SampleInRange (decodePixel (Config.ref.REP c) q) := sampleInRange_decodePixel hq _
  have hluma := (abs_of_nonneg (lumaTap_nonneg hq t)).le
  have hchroma := (abs_of_nonneg (chromaTap_nonneg hq t)).le
  exact ⟨(abs_add_le _ _).trans (add_le_add (abs_mul_le_mul hluma hs.abs_y)
      (abs_mul_le_mul le_rfl (abs_carrier_le hs p))),
    abs_mul_le_mul hchroma hs.abs_i, abs_mul_le_mul hchroma hs.abs_q⟩

/-! ### A sum of taps -/

theorem fits_sum_of_tapInRange {q : Params} {f : Nat → Yiq} (h : ∀ t, TapInRange q t (f t)) :
    (Yiq.sum ((List.range 5).map f)).fits 32 := by
  have hy := abs_sum_map_le (List.range 5) (fun t => (f t).y) (lumaBound q) fun t _ => (h t).abs_y
  have hi := abs_sum_map_le (List.range 5) (fun t => (f t).i) (chromaBound q) fun t _ => (h t).abs_i
  have hq := abs_sum_map_le (List.range 5) (fun t => (f t).q) (chromaBound q) fun t _ => (h t).abs_q
  rw [lumaBound_sum] at hy
  rw [chromaBound_sum] at hi hq
  refine ⟨fitsSigned_of_abs_lt ?_, fitsSigned_of_abs_lt ?_, fitsSigned_of_abs_lt ?_⟩
  · rw [yiq_sum_y, List.map_map]; exact hy.trans_lt (by norm_num)
  · rw [yiq_sum_i, List.map_map]; exact hi.trans_lt (by norm_num)
  · rw [yiq_sum_q, List.map_map]; exact hq.trans_lt (by norm_num)

/-- A sum of at most one tap of a valid table from each position never leaves 32 bits (R11, R218). -/
theorem ref_partialSum_fits {q : Params} {lo : Nat} {a : Yiq} (hv : Config.ref.VALID q = true)
    (h : Machine.partialSum Config.ref (.image q) lo a) : a.fits 32 := by
  obtain ⟨pick, cls, ph, -, -, rfl⟩ := h
  have hq := paramsInRange_of_valid hv
  refine fits_sum_of_tapInRange (q := q) fun t => ?_
  split
  · exact tapInRange_gen hq ..
  · exact tapInRange_zero hq t

end Sys2Proof.Proofs

/-!
REF is an NFB (spec 00_scope R10, R11; 40_setup R128 to R130; 42_blit R177; 45_reference_configuration R213 to R215).
-/

namespace Sys2Proof.Proofs

open Sys2Proof Sys2Proof.Laws Sys2Proof.Ref

theorem yiq_eq {a b : Yiq} (hy : a.y = b.y) (hi : a.i = b.i) (hq : a.q = b.q) : a = b := by
  cases a; cases b; congr

/-- `k` times a triple. -/
def scaled (k : Int) (a : Yiq) : Yiq := ⟨k * a.y, k * a.i, k * a.q⟩

/-- The only crosstalk taps, 1 and 4, are opposite: they cancel where they stand at one phase. -/
theorem crosstalk_cancels (s : Yiq) (ph : Nat → Nat) (h : ph 1 = ph 4) :
    ((List.range 5).map fun t => xtalkGain * xtalk t * carrier s (ph t)).sum = 0 := by
  simp [List.range_succ, xtalk, h]

/-- Five taps of one class, taps 1 and 4 at one phase, sum to 4096 times the sample (R213, R214). -/
theorem ref_sum_gen (q : Params) (c : Nat) (ph : Nat → Nat) (h : ph 1 = ph 4) :
    Yiq.sum ((List.range 5).map fun t => Config.ref.gen q c (ph t) t) =
      scaled 4096 (Config.ref.DECODE (Config.ref.REP c) q) := by
  show Yiq.sum ((List.range 5).map fun t => buildKernel (decodePixel (Config.ref.REP c) q) (ph t) q t) =
    scaled 4096 (decodePixel (Config.ref.REP c) q)
  generalize decodePixel (Config.ref.REP c) q = s
  refine yiq_eq ?_ ?_ ?_
  · simp only [yiq_sum_y, List.map_map, Function.comp_def, buildKernel, List.sum_map_add, List.sum_map_mul_right,
      lumaTap_sum, crosstalk_cancels s ph h, add_zero, scaled]
  · simp only [yiq_sum_i, List.map_map, Function.comp_def, buildKernel, List.sum_map_mul_right, chromaTap_sum, scaled]
  · simp only [yiq_sum_q, List.map_map, Function.comp_def, buildKernel, List.sum_map_mul_right, chromaTap_sum, scaled]

/-- R213. -/
theorem ref_kernelSum (q : Params) (c p : Nat) :
    Config.ref.kernelSum q c p = scaled 4096 (Config.ref.DECODE (Config.ref.REP c) q) :=
  ref_sum_gen q c (fun _ => p) rfl

/-- Taps 1 and 4 of an interior column come from pixels of one phase: they are P apart (R214). -/
theorem ref_flatPhase_one_eq_four (a : Nat) : Config.ref.flatPhase a 1 = Config.ref.flatPhase a 4 := by
  simp only [Config.flatPhase, Config.ref]
  omega

/-- R214. -/
theorem ref_flatSum (q : Params) (c a : Nat) :
    Config.ref.flatSum q c a = scaled 4096 (Config.ref.DECODE (Config.ref.REP c) q) :=
  ref_sum_gen q c (Config.ref.flatPhase a) (ref_flatPhase_one_eq_four a)

theorem ref_noOverflow : Config.ref.NoOverflow where
  taps q c p t hv hc hp ht := by
    have htap : Machine.partialSum Config.ref (.image q) t (Yiq.zero.add (Config.ref.gen q c p t)) :=
      partialSum_add_tap (partialSum_zero Config.ref ref_scalarsOk (.image q) (t + 1)) ht hc hp
    rw [yiq_zero_add] at htap
    exact ref_partialSum_fits hv htap
  sums q cls ph hv hc hp :=
    ref_partialSum_fits (lo := 0) hv ⟨fun _ => true, cls, ph, hc, hp, by simp [Machine.Bank.tap]⟩

theorem ref_energyConserved : Config.ref.EnergyConserved := by
  intro q c p p' _ _ _ _
  rw [ref_kernelSum, ref_kernelSum, sub_self, abs_zero]
  exact Int.natCast_nonneg _

theorem ref_flatField : Config.ref.FlatField := by
  intro q c a a' _ _ _ _
  rw [ref_flatSum, ref_flatSum]

theorem ref_zeroSaturation : Config.ref.ZeroSaturation where
  sums q c p _ _ _ hi hq := by
    rw [ref_kernelSum, scaled, hi, hq]
    exact ⟨rfl, rfl⟩
  white := by decide

/-- Settles O56: each constraint by its own lemma, the sums from R213 and R214, the ranges from R218. -/
theorem refIsAdmissible : Obligations.RefIsAdmissible where
  scalars := ref_scalarsOk
  noOverflow := ref_noOverflow
  energy := ref_energyConserved
  flat := ref_flatField
  saturation := ref_zeroSaturation
  final_zero := by decide

end Sys2Proof.Proofs

/-!
REF's accumulators stay in 32 bits (spec 00_scope R11; 42_blit R172, R174; 45_reference_configuration R218).
-/

namespace Sys2Proof.Proofs

open Sys2Proof Sys2Proof.Machine Sys2Proof.Laws

/-- Slots that hold sums of taps of a whole table are signed 32-bit integers. -/
theorem ref_slots_fit {s : State} {lo : Nat} {E : Engine} (h : E.SlotsOk Config.ref s lo)
    (hb : (s.bank E.lbank).isTable Config.ref) : ∀ a ∈ E.w, a.fits 32 := by
  intro a ha
  obtain ⟨j, hj⟩ := List.mem_iff_getElem?.1 ha
  obtain ⟨q, hq, hacc⟩ := hb
  have hv : Config.ref.VALID q = true := (Bool.and_eq_true_iff.1 hacc).2
  exact ref_partialSum_fits hv (hq ▸ h j a hj)

/-- Settles O60: `State.WindowsOk` holds after reset and is kept by every step (`windowsOk_stepIn`), and in REF a sum of at
most one tap from each position fits 32 bits (`ref_partialSum_fits`). -/
theorem refWindowStaysIn32Bits : Obligations.RefWindowStaysIn32Bits := by
  refine ⟨fun C hC => ⟨windowsOk_afterReset C _ _ _ _, fun s t => windowsOk_stepIn hC,
    fun s e E => slotsOk_consumed_of_ok hC⟩, ?_⟩
  intro s e E hs hw hE hr
  obtain ⟨-, hbank⟩ := hs.latched e E hE hr.1 hr.2
  exact ⟨ref_slots_fit (hw e E hE hr.1 hr.2) hbank,
    ref_slots_fit (slotsOk_consumed_of_ok ref_scalarsOk hs hw hE hr) hbank⟩

end Sys2Proof.Proofs

/-!
The invariant of the machine, `State.Ok`: it holds after reset and every step of every agent keeps it (spec 10_state R30
to R53; 40_setup R134; 42_blit R168).
-/

namespace Sys2Proof.Proofs

open Sys2Proof Sys2Proof.Machine Sys2Proof.Laws

variable {C : Config} {s t : State} {e : Nat} {E F : Engine}

/-! ### One engine -/

/-- What the running BLIT of an engine needs of the table: it is published, and the latched bank is whole (R51, R73). -/
def TableOk (C : Config) (s : State) (E : Engine) : Prop := s.tvalid = true ∧ (s.bank E.lbank).isTable C

/-- An idle engine owes its registers alone: the other clauses speak of a running command. -/
theorem engineOk_of_idle (hb : E.busy = false) (hsrc : E.src.getLsbD 0 = false) (hdst : E.dst.getLsbD 0 = false)
    (hphase : E.phase < C.P) : E.Ok C where
  src_even := hsrc
  dst_even := hdst
  phase_lt := hphase
  busy_err h := by rw [hb] at h; cases h
  setup h := by rw [hb] at h; cases h
  blit h := by rw [hb] at h; cases h

/-- Every value the hardware stores in `SRC` and `DST` is even (R31, R32). -/
theorem evenAddr_getLsbD_zero (v : Word) : (evenAddr v).getLsbD 0 = false := by simp [evenAddr]

theorem engineOk_writeReg (hC : C.ScalarsOk) (h : E.Ok C) (hb : E.busy = false) (g : Reg) (v : Word) :
    (E.writeReg C g v).Ok C := by
  obtain ⟨hbusy, -⟩ := writeReg_hidden C E g v
  refine engineOk_of_idle (hbusy.trans hb) ?_ ?_ ?_
  · cases g with
    | src => exact evenAddr_getLsbD_zero v
    | _ => exact h.src_even
  · cases g with
    | dst => exact evenAddr_getLsbD_zero v
    | _ => exact h.dst_even
  · cases g with
    | phase => exact Nat.mod_lt _ hC.P_pos
    | _ => exact h.phase_lt

theorem engineOk_raised (h : E.Ok C) (hb : E.busy = false) (k : ErrCode) : (E.raised k).Ok C :=
  engineOk_of_idle ((raised_busy E k).trans hb) ((raised_src E k).symm ▸ h.src_even)
    ((raised_dst E k).symm ▸ h.dst_even) ((raised_phase E k).symm ▸ h.phase_lt)

theorem engineOk_reset (hC : C.ScalarsOk) : (Engine.reset C).Ok C := 
  engineOk_of_idle (engineReset_busy C) (by simp) (by simp) hC.P_pos

/-- The window and the counters a BLIT starts with (R161); a row of no pixels starts in its flush. -/
theorem blitOk_startBlit (b : BankIx) (hphase : E.phase < C.P) (hlens : E.srcLen = E.dstLen) :
    (E.startBlit C b).BlitOk C where
  lens := hlens
  lph := by simp [Nat.mod_eq_of_lt hphase]
  col_le := Nat.zero_le _
  wb_filling _ := by simp
  wb_flushing h := by rw [startBlit_col] at h; rw [← h]; simp
  w_length := by simp

theorem engineOk_accepted (h : E.Ok C) (hb : E.busy = false) (hF : Accepted C s E F) : F.Ok C := by
  cases hF with
  | error k _ => exact engineOk_raised h hb k
  | setup ha => exact ⟨h.src_even, h.dst_even, h.phase_lt, fun _ => rfl, fun _ _ => ha, nofun⟩
  | blit _ hlens =>
    exact ⟨h.src_even, h.dst_even, h.phase_lt, fun _ => rfl, nofun, fun _ _ => blitOk_startBlit _ h.phase_lt hlens⟩
  | lookup y i q _ => exact engineOk_of_idle hb h.src_even h.dst_even h.phase_lt

/-- The one command whose acceptance starts a BLIT latches the published bank (R161). -/
theorem tableOk_accepted (hs : s.Ok C) (hb : E.busy = false) (hF : Accepted C s E F) (hr : F.RunsBlit) :
    TableOk C s F := by
  obtain ⟨hbusy, hlop⟩ := hr
  cases hF with
  | error k _ => rw [raised_busy, hb] at hbusy; cases hbusy
  | setup _ => cases hlop
  | blit htv _ => exact ⟨htv, hs.published htv⟩
  | lookup y i q _ => rw [hb] at hbusy; cases hbusy

/-! ### The steps of a running BLIT -/

/-- Advancing the working phase by one pixel (R173). -/
theorem rowPhase_succ (p n : Nat) : ((p + n * C.STEP) % C.P + C.STEP) % C.P = (p + (n + 1) * C.STEP) % C.P := by
  rw [Nat.mod_add_mod, Nat.add_assoc, Nat.succ_mul]

/-- The engine after a pixel step (R169). -/
def pixelStepped (C : Config) (s : State) (E : Engine) : Engine :=
  { (E.consumed C s).retired with col := E.col + 1 }

theorem pixelStep_eq (C : Config) (e : Nat) (E : Engine) (s : State) :
    pixelStep C e E s =
      State.setEngine { s with mem := retireMem C (E.consumed C s) s.mem } e (pixelStepped C s E) := rfl

theorem consumed_w_length (h : E.w.length = C.T) : (E.consumed C s).w.length = C.T := by
  simp [Engine.consumed, h]

theorem blitOk_pixelStepped (h : E.BlitOk C) (hc : E.col < E.rowLen) : (pixelStepped C s E).BlitOk C where
  lens := h.lens
  lph := by
    show (E.lph + C.STEP) % C.P = (E.phase + (E.col + 1) * C.STEP) % C.P
    rw [h.lph, rowPhase_succ]
  col_le := hc
  wb_filling _ := by
    have hwb := h.wb_filling hc
    show E.wb + 1 = ((E.col + 1 : Nat) : Int) - C.LEFT
    omega
  wb_flushing hN := by
    have hwb := h.wb_filling hc
    have hN' : E.col + 1 = E.rowLen := hN
    show (E.rowLen : Int) - C.LEFT ≤ E.wb + 1 ∧ E.wb + 1 ≤ E.rowLen
    omega
  w_length := (shiftWindow_length _).trans (consumed_w_length h.w_length)

theorem blitOk_retired (h : E.BlitOk C) (hc : E.rowLen ≤ E.col) (hwb : E.wb < E.rowLen) : E.retired.BlitOk C where
  lens := h.lens
  lph := h.lph
  col_le := h.col_le
  wb_filling hlt := absurd (show E.col < E.rowLen from hlt) (by omega)
  wb_flushing _ := by
    obtain ⟨hlo, -⟩ := h.wb_flushing (le_antisymm h.col_le hc)
    show (E.rowLen : Int) - C.LEFT ≤ E.wb + 1 ∧ E.wb + 1 ≤ E.rowLen
    omega
  w_length := (shiftWindow_length _).trans h.w_length

/-- An engine that goes on with its BLIT keeps what it owes, once its window and its counters do. -/
theorem engineOk_of_running (h : E.Ok C) (hsrc : F.src = E.src) (hdst : F.dst = E.dst) (hphase : F.phase = E.phase)
    (herr : F.err = E.err) (hb : E.busy = true) (hl : F.lop = .blit) (hF : F.BlitOk C) : F.Ok C where
  src_even := hsrc ▸ h.src_even
  dst_even := hdst ▸ h.dst_even
  phase_lt := hphase ▸ h.phase_lt
  busy_err _ := herr ▸ h.busy_err hb
  setup _ h' := by rw [hl] at h'; cases h'
  blit _ _ := hF

/-! ### The whole state -/

/-- The order of the agents, the agents themselves and the port are no part of the invariant, and memory is one through
its canonical form alone. -/
theorem ok_of_same (hs : s.Ok C) (he : t.engines = s.engines) (hm : Memory.wf t.mem = true) (ha : t.active = s.active)
    (htv : t.tvalid = s.tvalid) (hb : ∀ b, t.bank b = s.bank b) : t.Ok C where
  engines_length := he ▸ hs.engines_length
  engines := he ▸ hs.engines
  mem := hm
  published h := by rw [hb, ha]; exact hs.published (htv ▸ h)
  latched e E hE h1 h2 := by rw [hb, htv]; exact hs.latched e E (he ▸ hE) h1 h2

/-- After an update of one engine, an engine is the new one or one that stood there before. -/
theorem engine_of_set {l : List Engine} {e' : Nat} {E' : Engine} (h : (l.set e F)[e']? = some E') :
    E' = F ∨ l[e']? = some E' := by
  rw [List.getElem?_set] at h
  split at h
  · split at h
    · exact .inl (Option.some.inj h).symm
    · cases h
  · exact .inr h

theorem ok_setEngine (hs : s.Ok C) (hF : F.Ok C) (ht : F.RunsBlit → TableOk C s F) : (s.setEngine e F).Ok C where
  engines_length := List.length_set.trans hs.engines_length
  engines e' E' hE' := by
    rcases engine_of_set hE' with rfl | hE'
    · exact hF
    · exact hs.engines e' E' hE'
  mem := hs.mem
  published := hs.published
  latched e' E' hE' h1 h2 := by
    rcases engine_of_set hE' with rfl | hE'
    · exact ht ⟨h1, h2⟩
    · exact hs.latched e' E' hE' h1 h2

theorem ok_setEngine_of_idle (hs : s.Ok C) (hF : F.Ok C) (hb : F.busy = false) : (s.setEngine e F).Ok C :=
  ok_setEngine hs hF fun ⟨hr, _⟩ => by rw [hb] at hr; cases hr

theorem ok_setHost (hs : s.Ok C) (n : Nat) (H : HostAgent) : (s.setHost n H).Ok C :=
  ok_of_same hs rfl hs.mem rfl rfl fun _ => rfl

theorem ok_setMem (hs : s.Ok C) {m : Memory} (hm : Memory.wf m = true) : State.Ok C { s with mem := m } :=
  ok_of_same hs rfl hm rfl rfl fun _ => rfl

theorem ok_afterReset (hC : C.ScalarsOk) {m : Memory} (hm : Memory.wf m = true) (n : Nat) (hs : List HostAgent)
    (l : List Agent) : (State.afterReset C n m hs l).Ok C := by
  have only : ∀ (e : Nat) (E : Engine), (State.afterReset C n m hs l).engines[e]? = some E → E = Engine.reset C :=
    fun e E hE => List.eq_of_mem_replicate (List.mem_of_getElem? hE)
  refine ⟨by simp, fun e E hE => only e E hE ▸ engineOk_reset hC, hm, nofun, ?_⟩
  intro e E hE hb
  rw [only e E hE, engineReset_busy] at hb
  cases hb

/-! ### A command and a register write -/

theorem ok_execIn {i : Instr} (hs : s.Ok C) (ht : execIn C i s = .next t) : t.Ok C := by
  rcases execIn_cases C i s with ⟨h', -⟩ | ⟨E, F, hE, hb, hF, h'⟩
  · rw [h'] at ht; cases ht; exact hs
  · rw [h'] at ht; cases ht
    exact ok_setEngine hs (engineOk_accepted (hs.engines _ E hE) hb hF) (tableOk_accepted hs hb hF)

/-- A write to a register that is not held addresses an idle engine (R41). -/
theorem idle_of_not_writeHeld {off : BitVec 12} {g : Reg} (hw : writeHeld s off = false)
    (hE : s.engines[offEngine off]? = some E) (hg : Reg.ofOffset (offReg off) = some g) : E.busy = false := by
  obtain ⟨-, hheld⟩ := ofOffset_some _ g hg
  simpa [writeHeld, hE, hheld] using hw

theorem ok_regWritten (hC : C.ScalarsOk) {off : BitVec 12} {v : Word} (hs : s.Ok C) (hw : writeHeld s off = false)
    (ht : RegWritten C off v s t) : t.Ok C := by
  cases ht with
  | ignored => exact hs
  | illegal E r hE hg _ =>
    have hb := idle_of_not_writeHeld hw hE hg
    rw [raiseError_of_engine _ hE]
    exact ok_setEngine_of_idle hs (engineOk_raised (hs.engines _ E hE) hb _) ((raised_busy ..).trans hb)
  | command E i t _ _ _ hx =>
    exact ok_execIn (s := { s with port := offEngine off }) (ok_of_same hs rfl hs.mem rfl rfl fun _ => rfl) hx
  | stored E g hE hg _ =>
    have hb := idle_of_not_writeHeld hw hE hg
    obtain ⟨hbusy, -⟩ := writeReg_hidden C E g v
    exact ok_setEngine_of_idle hs (engineOk_writeReg hC (hs.engines _ E hE) hb g v) (hbusy.trans hb)

/-! ### The turns of the agents -/

theorem ok_hostTurn (hC : C.ScalarsOk) {n : Nat} (hs : s.Ok C) (ht : HostTurn C n s t) : t.Ok C := by
  cases ht with
  | wait => exact hs
  | agentOnly H => exact ok_setHost hs n H
  | memory H a v _ => exact ok_setMem (ok_setHost hs n H) (wf_write16 s.mem a v hs.mem)
  | register H off v t hw hr => exact ok_regWritten hC (ok_setHost hs n H) hw hr

/-- Publishing (R134): the new bank is the table of accepted parameters, and the running BLITs read the other bank. -/
theorem ok_completeSetup (hs : s.Ok C) (hE : s.engines[e]? = some E) (hr : E.RunsSetup)
    (h0 : refcnt s (!s.active) = 0) : (completeSetup e E s).Ok C where
  engines_length := by simpa using hs.engines_length
  engines e' E' hE' := by
    have hEok := hs.engines e E hE
    rw [completeSetup_engines] at hE'
    rcases engine_of_set hE' with rfl | hE'
    · exact engineOk_of_idle rfl hEok.src_even hEok.dst_even hEok.phase_lt
    · exact hs.engines e' E' hE'
  mem := by simpa using hs.mem
  published _ := by
    rw [completeSetup_active, completeSetup_bank, if_neg (by simp)]
    exact ⟨E.params, rfl, (hs.engines e E hE).setup hr.1 hr.2⟩
  latched e' E' hE' h1 h2 := by
    rw [completeSetup_engines] at hE'
    rcases engine_of_set hE' with rfl | hE'
    · cases h1
    · rw [completeSetup_bank, if_pos (lbank_eq_active_of_refcnt h0 hE' ⟨h1, h2⟩)]
      exact ⟨rfl, (hs.latched e' E' hE' h1 h2).2⟩

theorem ok_engineTurn (hC : C.ScalarsOk) (hs : s.Ok C) (ht : EngineTurn C e s t) : t.Ok C := by
  cases ht with
  | idle => exact hs
  | publish E hE hb hl h0 => exact ok_completeSetup hs hE ⟨hb, hl⟩ h0
  | pixel E hE hb hl hc _ =>
    have hEok := hs.engines e E hE
    exact ok_setEngine (ok_setMem hs (wf_retireMem C _ s.mem hs.mem))
      (engineOk_of_running hEok rfl rfl rfl rfl hb hl (blitOk_pixelStepped (hEok.blit hb hl) hc))
      fun _ => hs.latched e E hE hb hl
  | flush E hE hb hl hc hwb _ =>
    have hEok := hs.engines e E hE
    exact ok_setEngine (ok_setMem hs (wf_retireMem C E s.mem hs.mem))
      (engineOk_of_running hEok rfl rfl rfl rfl hb hl (blitOk_retired (hEok.blit hb hl) hc hwb))
      fun _ => hs.latched e E hE hb hl
  | complete E hE hb hl _ _ =>
    have hEok := hs.engines e E hE
    exact ok_setEngine_of_idle hs
      (engineOk_of_idle rfl hEok.src_even hEok.dst_even (lph_lt_of_blitOk hC (hEok.blit hb hl))) rfl

/-- Every step, of any agent, keeps the invariant. -/
theorem ok_stepIn (hC : C.ScalarsOk) (hs : s.Ok C) (ht : stepIn C s = .next t) : t.Ok C := by
  cases stepIn_cases C s t ht with
  | nobody _ => exact hs
  | host n rest t _ hh => exact ok_hostTurn hC (ok_of_sched hs _) hh
  | engine e rest t _ he => exact ok_engineTurn hC (ok_of_sched hs _) he
  | reset rest _ => exact ok_afterReset hC hs.mem _ _ _

/-- Settles O54: every engine is idle at its reset values, no table is published and memory lists nothing. -/
theorem resetMeetsTheInvariant : Obligations.ResetMeetsTheInvariant :=
  fun _ hC => ok_afterReset hC rfl _ _ _

/-- Settles O55, by the turn of each agent (`ok_stepIn`); the machine in REF is the one at `Config.ref`. -/
theorem everyStepKeepsTheInvariant : Obligations.EveryStepKeepsTheInvariant :=
  ⟨fun _ hC _ _ => ok_stepIn hC, fun s _ hs ht => ok_stepIn ref_scalarsOk hs (step_eq_stepIn s ▸ ht)⟩

end Sys2Proof.Proofs

/-!
The fields of STATUS and CAP at their bits, and what each register reads after a write (spec 10_state R28 to R41).
-/

namespace Sys2Proof.Proofs

open Sys2Proof Sys2Proof.Machine Sys2Proof.Laws

variable (C : Config) (tv : Bool) (E : Engine) (v : Word)

/-! ### STATUS and CAP as numbers -/

/-- Putting bits below a word, as arithmetic. -/
theorem toNat_append_eq_add {m n : Nat} (x : BitVec m) (y : BitVec n) :
    (x ++ y).toNat = x.toNat * 2 ^ n + y.toNat := by
  rw [BitVec.toNat_append, ← Nat.shiftLeft_add_eq_or_of_lt y.isLt, Nat.shiftLeft_eq]

theorem toNat_stickyBits :
    E.stickyBits.toNat = 8 * E.sIll.toNat + 4 * E.sLen.toNat + 2 * E.sUninit.toNat + E.sCfg.toNat := by
  simp only [Engine.stickyBits, toNat_append_eq_add, BitVec.toNat_ofBool]
  omega

theorem toNat_statusWord :
    (statusWord tv E).toNat =
      256 * E.stickyBits.toNat + 16 * E.err.code.toNat + 2 * tv.toNat + E.busy.toNat := by
  simp only [statusWord, toNat_append_eq_add, BitVec.toNat_ofBool, BitVec.toNat_ofNat]
  omega

theorem toNat_capWord {C : Config} (hC : C.ScalarsOk) :
    (capWord C).toNat = 2 ^ 24 * C.STEP + 2 ^ 16 * C.LEFT + 2 ^ 8 * C.T + C.P := by
  obtain ⟨_, _, _, _, _, _⟩ := hC
  simp only [capWord, toNat_append_eq_add, BitVec.toNat_ofNat]
  omega

/-- The fields of STATUS, `ERR` as its code (R30). -/
theorem bitField_statusWord :
    bitField (statusWord tv E) 0 1 = E.busy.toNat ∧ bitField (statusWord tv E) 1 1 = tv.toNat ∧
    bitField (statusWord tv E) 2 2 = 0 ∧ bitField (statusWord tv E) 4 4 = E.err.code.toNat ∧
    bitField (statusWord tv E) 8 1 = E.sCfg.toNat ∧ bitField (statusWord tv E) 9 1 = E.sUninit.toNat ∧
    bitField (statusWord tv E) 10 1 = E.sLen.toNat ∧ bitField (statusWord tv E) 11 1 = E.sIll.toNat ∧
    bitField (statusWord tv E) 12 20 = 0 := by
  have hcode := E.err.code.isLt
  have htv := tv.toNat_le
  have hbusy := E.busy.toNat_le
  have hcfg := E.sCfg.toNat_le
  have huninit := E.sUninit.toNat_le
  have hlen := E.sLen.toNat_le
  have hill := E.sIll.toNat_le
  simp only [bitField, toNat_statusWord, toNat_stickyBits]
  omega

/-- Settles O12, from the fields of STATUS (`bitField_statusWord`) and the codes of R241. -/
theorem statusReadsItsFields : Obligations.StatusReadsItsFields := by
  intro C tv E
  obtain ⟨hbusy, htv, hlow, hcode, hsticky⟩ := bitField_statusWord tv E
  exact ⟨hbusy, htv, hlow, hcode.trans (by cases E.err <;> rfl), hsticky⟩

/-- Settles O16, from CAP as a sum of its fields (`toNat_capWord`). -/
theorem capReadsTheBuildParameters : Obligations.CapReadsTheBuildParameters := by
  refine ⟨fun C tv E v hC => ⟨rfl, rfl, ?_⟩, fun _ _ => rfl⟩
  have hcap := toNat_capWord hC
  obtain ⟨_, _, _, _, _, _⟩ := hC
  simp only [readReg, bitField, hcap]
  omega

/-! ### STATUS after a write -/

theorem stickyBits_clearSticky : (E.clearSticky v).stickyBits = E.stickyBits &&& ~~~(v.extractLsb' 8 4) := by
  apply BitVec.eq_of_getLsbD_eq
  intro i hi
  simp only [Engine.stickyBits, Engine.clearSticky, BitVec.getLsbD_and, BitVec.getLsbD_not, BitVec.getLsbD_extractLsb',
    BitVec.getLsbD_append, BitVec.getLsbD_ofBool]
  interval_cases i <;> simp

/-- The bits 7:0 of STATUS, which no write touches. -/
def statusLow : BitVec 8 := E.err.code ++ 0#2 ++ BitVec.ofBool tv ++ BitVec.ofBool E.busy

theorem statusWord_eq : statusWord tv E = 0#20 ++ E.stickyBits ++ statusLow tv E := by
  apply BitVec.eq_of_toNat_eq
  simp only [statusWord, statusLow, toNat_append_eq_add]
  omega

theorem getLsbD_statusWord (i : Nat) :
    (statusWord tv E).getLsbD i = if i < 8 then (statusLow tv E).getLsbD i else E.stickyBits.getLsbD (i - 8) := by
  rw [statusWord_eq, BitVec.getLsbD_append, BitVec.getLsbD_append]
  split_ifs with _ hsticky
  · rfl
  · rfl
  · rw [BitVec.getLsbD_zero, BitVec.getLsbD_of_ge _ _ (by omega)]

theorem getLsbD_statusMask (i : Nat) : (v &&& 0xF00#32).getLsbD i = (v.getLsbD i && decide (8 ≤ i ∧ i < 12)) := by
  have literal : (0xF00#32 : Word).getLsbD i = decide (8 ≤ i ∧ i < 12) := by
    by_cases hi : i < 32
    · revert i; decide
    · rw [BitVec.getLsbD_of_ge _ _ (by omega), decide_eq_false (by omega)]
  rw [BitVec.getLsbD_and, literal]

theorem statusWord_clearSticky :
    statusWord tv (E.clearSticky v) = statusWord tv E &&& ~~~(v &&& 0xF00#32) := by
  apply BitVec.eq_of_getLsbD_eq
  intro i hi
  rw [BitVec.getLsbD_and, BitVec.getLsbD_not, getLsbD_statusMask, getLsbD_statusWord, getLsbD_statusWord]
  rw [stickyBits_clearSticky, BitVec.getLsbD_and, BitVec.getLsbD_not, BitVec.getLsbD_extractLsb']
  by_cases hlow : i < 8
  · simp [hlow, hi, statusLow, Engine.clearSticky]
  by_cases hsticky : i < 12
  · rw [show 8 + (i - 8) = i by omega]
    simp [hlow, hi, hsticky, show 8 ≤ i by omega, show i - 8 < 4 by omega]
  · simp [hlow, BitVec.getLsbD_of_ge E.stickyBits (i - 8) (by omega)]

/-- Settles O13, bit by bit (`statusWord_clearSticky`). -/
theorem statusWriteClearsOnlyWrittenOnes : Obligations.StatusWriteClearsOnlyWrittenOnes :=
  fun _ tv E v => ⟨statusWord_clearSticky tv E v, _, _, _, _, rfl⟩

/-! ### Every register after a write -/

theorem evenAddr_eq : evenAddr v = BitVec.ofNat 32 (2 * (v.toNat / 2)) := by
  have shifted : evenAddr v = (v >>> 1) <<< 1 := by
    have literal : ∀ i < 32, (0xFFFFFFFE#32 : Word).getLsbD i = decide (1 ≤ i) := by decide
    apply BitVec.eq_of_getLsbD_eq
    intro i hi
    rw [evenAddr, BitVec.getLsbD_and, literal i hi, BitVec.getLsbD_shiftLeft, BitVec.getLsbD_ushiftRight]
    by_cases h1 : 1 ≤ i
    · simp [h1, hi, show i ≠ 0 by omega]
    · simp [show i = 0 by omega]
  apply BitVec.eq_of_toNat_eq
  rw [shifted, BitVec.toNat_shiftLeft, BitVec.toNat_ushiftRight, BitVec.toNat_ofNat, Nat.shiftLeft_eq,
    Nat.shiftRight_eq_div_pow, pow_one, Nat.mul_comm]

theorem setWidth_setWidth_eq : (v.setWidth 16).setWidth 32 = BitVec.ofNat 32 (v.toNat % 2 ^ 16) := by
  apply BitVec.eq_of_toNat_eq
  simp

/-- A write leaves what every other register reads; the read-only ones it leaves altogether. -/
theorem readReg_writeReg_of_ne {g g' : Reg} (h : g ≠ g') :
    readReg C tv (E.writeReg C g v) g' = readReg C tv E g' := by
  cases g <;> cases g' <;> try rfl
  all_goals exact absurd rfl h

/-- Settles O11: the even addresses by `evenAddr_eq`, the lengths by `setWidth_setWidth_eq`, and every other register by
`readReg_writeReg_of_ne`. -/
theorem registersReadBackWhatIsStored : Obligations.RegistersReadBackWhatIsStored := by
  intro C tv E v
  refine ⟨evenAddr_eq v, evenAddr_eq v, setWidth_setWidth_eq v, setWidth_setWidth_eq v, rfl, ?_, ?_, fun _ => rfl,
    fun _ _ => readReg_writeReg_of_ne C tv E v⟩
  · intro g hg
    fin_cases hg <;> rfl
  · intro g hg
    fin_cases hg <;> rfl

end Sys2Proof.Proofs

/-!
What a host agent's turn does to the registers: a write that is held, one that lands, one at a reserved offset, a read
(spec 10_state R28, R29, R40, R41; 20_memory R66).
-/

namespace Sys2Proof.Proofs

open Sys2Proof Sys2Proof.Machine Sys2Proof.Laws

variable {C : Config} {run : Acceptance} {s : State} {h e : Nat} {H : HostAgent} {E : Engine} {g : Reg}
  {off : BitVec 12} {v : Word} {ops : List HostOp} {rest : List Agent}

/-! ### Offsets -/

theorem offAligned_regOff (g : Reg) (he : e < 16) : offAligned (regOff e g) = true := by
  have hg : g.offset % 4 = 0 := by cases g <;> rfl
  rw [offAligned, decide_eq_true_eq, regOff_toNat e g he]
  omega

/-- The offsets of a block that no register stands at: 0x3C and 0x4C to 0xFC (R40). -/
def reservedOffset (r : Nat) : Prop := r = 0x3C ∨ 0x4C ≤ r

theorem offset_not_reserved (g : Reg) : ¬ reservedOffset g.offset := by
  unfold reservedOffset
  cases g <;> decide

theorem ofOffset_of_reserved {r : Nat} (hr : reservedOffset r) : Reg.ofOffset r = none := by
  cases hg : Reg.ofOffset r with
  | none => rfl
  | some g =>
    obtain ⟨rfl, -⟩ := ofOffset_some r g hg
    exact absurd hr (offset_not_reserved g)

theorem heldOffset_of_reserved {r : Nat} (hr : reservedOffset r) : heldOffset r = false := by
  unfold reservedOffset at hr
  rw [heldOffset, decide_eq_false_iff_not]
  omega

/-! ### Whether a write is held -/

theorem writeHeld_of_idle (hE : s.engines[offEngine off]? = some E) (hb : E.busy = false) :
    writeHeld s off = false := by
  simp [writeHeld, hE, hb]

theorem writeHeld_of_busy (hE : s.engines[offEngine off]? = some E) (hb : E.busy = true)
    (hr : heldOffset (offReg off) = true) : writeHeld s off = true := by
  simp [writeHeld, hE, hb, hr]

/-- No register stands at the offset: the engine does not exist, or the offset is reserved (R40). -/
def unmapped (s : State) (off : BitVec 12) : Prop :=
  s.engines[offEngine off]? = none ∨ reservedOffset (offReg off)

theorem writeHeld_of_unmapped (hu : unmapped s off) : writeHeld s off = false := by
  rcases hu with hE | hr
  · simp [writeHeld, hE]
  · cases hE : s.engines[offEngine off]? with
    | none => simp [writeHeld, hE]
    | some E => simp [writeHeld, hE, heldOffset_of_reserved hr]

/-! ### Register reads and writes -/

theorem regRead_regOff (he : e < 16) (hE : s.engines[e]? = some E) :
    regRead C s (regOff e g) = readReg C s.tvalid E g := by
  simp [regRead, offEngine_regOff e g he, offReg_regOff e g he, hE]

theorem regRead_of_unmapped (hu : unmapped s off) : regRead C s off = 0#32 := by
  rcases hu with hE | hr
  · simp [regRead, hE]
  · simp [regRead, ofOffset_of_reserved hr]

theorem regWrite_cmd (he : e < 16) (hE : s.engines[e]? = some E) :
    regWrite C run (regOff e .cmd) v s = acceptCommand run e v s := by
  simp [regWrite, offEngine_regOff e _ he, offReg_regOff e _ he, hE]

theorem regWrite_reg (he : e < 16) (hE : s.engines[e]? = some E) (hg : g ≠ .cmd) :
    regWrite C run (regOff e g) v s = .next (s.setEngine e (E.writeReg C g v)) := by
  simp [regWrite, offEngine_regOff e _ he, offReg_regOff e _ he, hE]

theorem regWrite_of_unmapped (hu : unmapped s off) : regWrite C run off v s = .next s := by
  rcases hu with hE | hr
  · simp [regWrite, hE]
  · simp [regWrite, ofOffset_of_reserved hr]

/-! ### The turns of an agent -/

/-- The state once the turn of agent `h` is over, which leaves the agent as `H` (R17). -/
def turnOver (s : State) (h : Nat) (H : HostAgent) (rest : List Agent) : State :=
  { s with sched := rest ++ [.host h], hosts := s.hosts.set h H }

theorem scheduledStep_wr_of_held (turn : HostTurnOf s h H (.wr off v) ops rest) (ha : offAligned off = true)
    (hw : writeHeld s off = true) :
    scheduledStep C run s = .next (turnOver s h { H with ops := ops, held := some (off, v) } rest) := by
  have moved : writeHeld { s with sched := rest ++ [.host h] } off = true := hw
  rw [scheduledStep_hostTurn turn, hostIssue, ha, moved]
  rfl

theorem scheduledStep_wr_of_free (turn : HostTurnOf s h H (.wr off v) ops rest) (ha : offAligned off = true)
    (hw : writeHeld s off = false) :
    scheduledStep C run s = regWrite C run off v (turnOver s h { H with ops := ops } rest) := by
  have moved : writeHeld { s with sched := rest ++ [.host h] } off = false := hw
  rw [scheduledStep_hostTurn turn, hostIssue, ha, moved]
  rfl

theorem scheduledStep_rd (turn : HostTurnOf s h H (.rd off) ops rest) (ha : offAligned off = true) :
    scheduledStep C run s =
      .next (turnOver s h { H with ops := ops, seen := H.seen ++ [regRead C s off] } rest) := by
  rw [scheduledStep_hostTurn turn, hostIssue, ha]
  rfl

/-- A write to a register of an idle engine takes place. -/
theorem scheduledStep_wr_regOff (turn : HostTurnOf s h H (.wr (regOff e g) v) ops rest) (he : e < 16)
    (hE : s.engines[e]? = some E) (hb : E.busy = false) :
    scheduledStep C run s = regWrite C run (regOff e g) v (turnOver s h { H with ops := ops } rest) :=
  scheduledStep_wr_of_free turn (offAligned_regOff g he)
    (writeHeld_of_idle ((congrArg (s.engines[·]?) (offEngine_regOff e g he)).trans hE) hb)

/-- The turn of an agent that holds a write (R41). -/
theorem scheduledStep_holding (hs : s.sched = .host h :: rest) (hH : s.hosts[h]? = some H)
    (hheld : H.held = some (off, v)) :
    scheduledStep C run s =
      if writeHeld s off then .next { s with sched := rest ++ [.host h] }
      else regWrite C run off v (turnOver s h { H with held := none } rest) := by
  simp only [scheduledStep, hs, takeTurn, hostStep, hH, hheld]
  rfl

/-- What the agent was before does not matter once its turn is over. -/
theorem turnOver_set (s : State) (h : Nat) (H H' : HostAgent) (rest : List Agent) :
    turnOver { s with hosts := s.hosts.set h H } h H' rest = turnOver s h H' rest := by
  simp [turnOver]

/-- The agent that has the write as its next operation instead of holding it. -/
def asking (H : HostAgent) (off : BitVec 12) (v : Word) : HostAgent :=
  { H with held := none, ops := .wr off v :: H.ops }

/-! ### The obligations -/

/-- Settles O8: the first attempt is recorded, and a turn of an agent whose write is held does nothing. -/
theorem writeToABusyEngineIsHeld : Obligations.WriteToABusyEngineIsHeld := by
  intro C s h H off v E rest hs hH hE hb hle hne ha
  have hw : writeHeld s off = true := writeHeld_of_busy hE hb (decide_eq_true ⟨hle, hne⟩)
  constructor
  · intro ops hnone hops
    exact scheduledStep_wr_of_held ⟨hs, hH, hnone, hops⟩ (decide_eq_true ha) hw
  · intro hheld
    exact (scheduledStep_holding hs hH hheld).trans (if_pos hw)

/-- Settles O9: both turns are the write to the same registers, in the same state with the turn over. -/
theorem heldWriteLandsOnceIdle : Obligations.HeldWriteLandsOnceIdle := by
  intro C s h H off v E rest hs hH hE hb ha hheld
  have hw : writeHeld s off = false := writeHeld_of_idle hE hb
  have turn : HostTurnOf { s with hosts := s.hosts.set h (asking H off v) } h (asking H off v) (.wr off v) H.ops rest :=
    ⟨hs, List.getElem?_set_self (List.getElem?_eq_some_iff.1 hH).1, rfl, rfl⟩
  have held_lands : stepIn C s = regWrite C (execIn C) off v (turnOver s h { H with held := none } rest) :=
    (scheduledStep_holding hs hH hheld).trans (if_neg (by simp [hw]))
  have direct_lands := scheduledStep_wr_of_free (C := C) (run := execIn C) turn (decide_eq_true ha) hw
  rw [turnOver_set] at direct_lands
  exact held_lands.trans direct_lands.symm

/-- Settles O15: an unmapped offset reads 0 and is neither held nor written. -/
theorem reservedOffsetsReadZeroIgnoreWrites : Obligations.ReservedOffsetsReadZeroIgnoreWrites := by
  intro C s h H off v ops rest ha hu
  have hu' : unmapped s off := hu
  have ha' : offAligned off = true := decide_eq_true ha
  constructor
  · intro turn
    rw [← regRead_of_unmapped (C := C) hu']
    exact scheduledStep_rd turn ha'
  · intro turn
    exact (scheduledStep_wr_of_free turn ha' (writeHeld_of_unmapped hu')).trans
      (regWrite_of_unmapped (s := turnOver s h { H with ops := ops } rest) hu')

/-- Settles O6: the write takes place, and its word is the command's. -/
theorem stepRunsTheCommandWritten : Obligations.StepRunsTheCommandWritten := by
  intro s h H e E w i ops rest turn he hE hb hi
  rw [step, scheduledStep_wr_regOff turn he hE hb,
    regWrite_cmd (s := turnOver s h { H with ops := ops } rest) he hE, acceptCommand, hi]
  rfl

/-- Settles O10. -/
theorem registerWriteStoresInItsEngineOnly : Obligations.RegisterWriteStoresInItsEngineOnly := by
  intro C s h H e E g v ops rest turn he hg hE hb
  exact (scheduledStep_wr_regOff turn he hE hb).trans
    (regWrite_reg (s := turnOver s h { H with ops := ops } rest) he hE hg)

/-- Settles O14. -/
theorem registerReadHasNoSideEffect : Obligations.RegisterReadHasNoSideEffect := by
  intro C s h H e E g ops rest turn he hE
  rw [← regRead_regOff (C := C) he hE]
  exact scheduledStep_rd turn (offAligned_regOff g he)

end Sys2Proof.Proofs

/-!
What each kind of step leaves unchanged: the acceptance of a command, an engine's turn, a host's turn, reset, and so
every step of the machine (spec 10_state R27, R41, R47 to R53; 40_setup R134; 42_blit R168 to R176).
-/

namespace Sys2Proof.Proofs

open Sys2Proof Sys2Proof.Machine Sys2Proof.Laws

variable {C : Config} {s t : State} {e : Nat} {E F : Engine} {rest : List Agent}

/-! ### The acceptance of a command -/

/-- What the acceptance of command `i` keeps of its own engine: the operands, the parameters and every sticky bit that
is set; the result registers unless it is a LOOKUP, BLIT's hidden state unless it is a BLIT, and what is running unless
it is either of SETUP and BLIT (R49). -/
structure KeptByAcceptance (i : Instr) (E F : Engine) : Prop where
  src : F.src = E.src
  dst : F.dst = E.dst
  srcLen : F.srcLen = E.srcLen
  dstLen : F.dstLen = E.dstLen
  phase : F.phase = E.phase
  params : F.params = E.params
  sCfg : E.sCfg = true → F.sCfg = true
  sUninit : E.sUninit = true → F.sUninit = true
  sLen : E.sLen = true → F.sLen = true
  sIll : E.sIll = true → F.sIll = true
  results : (∀ cls ph tap, i ≠ .lookup cls ph tap) → F.kresY = E.kresY ∧ F.kresI = E.kresI ∧ F.kresQ = E.kresQ
  hidden : i ≠ .blit → F.lbank = E.lbank ∧ F.lph = E.lph ∧ F.col = E.col ∧ F.wb = E.wb ∧ F.w = E.w
  running : i ≠ .blit → i ≠ .setup → F.busy = E.busy ∧ F.lop = E.lop

theorem keptByAcceptance_refl (i : Instr) (E : Engine) : KeptByAcceptance i E E :=
  ⟨rfl, rfl, rfl, rfl, rfl, rfl, id, id, id, id, fun _ => ⟨rfl, rfl, rfl⟩, fun _ => ⟨rfl, rfl, rfl, rfl, rfl⟩,
    fun _ _ => ⟨rfl, rfl⟩⟩

/-- An error keeps all of these, whatever the command. -/
theorem keptByAcceptance_raised (i : Instr) (E : Engine) (k : ErrCode) : KeptByAcceptance i E (E.raised k) where
  src := raised_src E k
  dst := raised_dst E k
  srcLen := raised_srcLen E k
  dstLen := raised_dstLen E k
  phase := raised_phase E k
  params := raised_params E k
  sCfg h := by cases k <;> simp [Engine.raised, Engine.setSticky, h]
  sUninit h := by cases k <;> simp [Engine.raised, Engine.setSticky, h]
  sLen h := by cases k <;> simp [Engine.raised, Engine.setSticky, h]
  sIll h := by cases k <;> simp [Engine.raised, Engine.setSticky, h]
  results _ := ⟨raised_kresY E k, raised_kresI E k, raised_kresQ E k⟩
  hidden _ := ⟨raised_lbank E k, raised_lph E k, raised_col E k, raised_wb E k, raised_w E k⟩
  running _ _ := ⟨raised_busy E k, raised_lop E k⟩

/-- A command presented to no idle engine has no effect (R29, R40). -/
theorem execIn_of_no_idle (i : Instr) (h : ∀ E, s.engines[s.port]? = some E → E.busy = true) :
    execIn C i s = .next s := by
  rcases execIn_cases C i s with ⟨h', -⟩ | ⟨E, F, hE, hb, -⟩
  · exact h'
  · rw [h E hE] at hb; cases hb

/-- A command presented to an idle engine changes that engine alone, and only what `KeptByAcceptance` lets it. -/
theorem execIn_of_idle (C : Config) (i : Instr) (hE : s.engines[s.port]? = some E) (hb : E.busy = false) :
    ∃ F, execIn C i s = .next (s.setEngine s.port F) ∧ KeptByAcceptance i E F := by
  cases i with
  | setup =>
    rw [execIn, acceptSetup_idle C hE hb]
    split
    · exact ⟨_, rfl, { keptByAcceptance_refl .setup E with running := fun _ h => absurd rfl h }⟩
    · exact ⟨_, rfl, keptByAcceptance_raised _ E _⟩
  | blit =>
    rw [execIn, acceptBlit_idle C hE hb]
    split
    · exact ⟨_, rfl, keptByAcceptance_raised _ E _⟩
    · split
      · exact ⟨_, rfl, keptByAcceptance_raised _ E _⟩
      · exact ⟨_, rfl, { keptByAcceptance_refl .blit E with
          hidden := fun h => absurd rfl h
          running := fun h _ => absurd rfl h }⟩
  | lookup cls ph tap =>
    rw [execIn, performLookup_idle C cls ph tap hE hb]
    split
    · exact ⟨_, rfl, keptByAcceptance_raised _ E _⟩
    · split
      · exact ⟨_, rfl, keptByAcceptance_raised _ E _⟩
      · exact ⟨_, rfl, { keptByAcceptance_refl (.lookup cls ph tap) E with
          results := fun h => absurd rfl (h cls ph tap) }⟩

/-- With an engine at the port, an acceptance answers the state with that engine updated. -/
theorem execIn_kept (C : Config) (i : Instr) (hE : s.engines[s.port]? = some E) :
    ∃ F, execIn C i s = .next (s.setEngine s.port F) ∧ KeptByAcceptance i E F := by
  cases hb : E.busy with
  | false => exact execIn_of_idle C i hE hb
  | true =>
    refine ⟨E, ?_, keptByAcceptance_refl i E⟩
    have same : s.setEngine s.port E = s := by
      obtain ⟨hlt, rfl⟩ := List.getElem?_eq_some_iff.1 hE
      simp [State.setEngine]
    rw [same]
    exact execIn_of_no_idle i fun E' hE' => Option.some.inj (hE'.symm.trans hE) ▸ hb

/-- Settles O31: every acceptance is an update of the engine at the port (`execIn_kept`). -/
theorem acceptanceFrame : Obligations.AcceptanceFrame := by
  intro i s t E hexec hE
  have hexec' : ∃ C, execIn C i s = .next t :=
    hexec.elim (fun h => ⟨Config.ref, exec_eq_execIn i s ▸ h⟩) id
  obtain ⟨C, ht⟩ := hexec'
  obtain ⟨F, hF, k⟩ := execIn_kept C i hE
  rw [hF] at ht
  cases ht
  refine ⟨rfl, rfl, rfl, rfl, rfl, rfl, rfl, rfl, rfl, fun e he => List.getElem?_set_ne (Ne.symm he), F,
    List.getElem?_set_self (List.getElem?_eq_some_iff.1 hE).1, ?_⟩
  exact ⟨k.src, k.dst, k.srcLen, k.dstLen, k.phase, k.params, k.sCfg, k.sUninit, k.sLen, k.sIll, k.results, k.hidden,
    k.running⟩

/-- Settles O33. -/
theorem commandWithoutAnIdleEngineHasNoEffect : Obligations.CommandWithoutAnIdleEngineHasNoEffect :=
  fun i s h => ⟨(exec_eq_execIn i s).trans (execIn_of_no_idle i h), fun _ => execIn_of_no_idle i h⟩

/-! ### An engine's turn -/

theorem engine_at_set (hE : s.engines[e]? = some E) : (s.engines.set e F)[e]? = some F :=
  List.getElem?_set_self (List.getElem?_eq_some_iff.1 hE).1

theorem engineTurn_frame (ht : EngineTurn C e s t) :
    (∀ e', e' ≠ e → t.engines[e']? = s.engines[e']?) ∧ t.hosts = s.hosts ∧ t.port = s.port ∧
      t.resets = s.resets := by
  cases ht with
  | idle => exact ⟨fun _ _ => rfl, rfl, rfl, rfl⟩
  | publish E _ _ _ _ =>
    rw [completeSetup_engines, completeSetup_hosts, completeSetup_port, completeSetup_resets]
    exact ⟨fun _ h => List.getElem?_set_ne (Ne.symm h), rfl, rfl, rfl⟩
  | pixel E _ _ _ _ _ => exact ⟨fun _ h => List.getElem?_set_ne (Ne.symm h), rfl, rfl, rfl⟩
  | flush E _ _ _ _ _ _ => exact ⟨fun _ h => List.getElem?_set_ne (Ne.symm h), rfl, rfl, rfl⟩
  | complete E _ _ _ _ _ => exact ⟨fun _ h => List.getElem?_set_ne (Ne.symm h), rfl, rfl, rfl⟩

/-- An engine writes no byte but the two of the column its running BLIT retires (R69, R174). -/
theorem engineTurn_mem (ht : EngineTurn C e s t) (hE : s.engines[e]? = some E) (a : Word)
    (ha : ¬ (E.RunsBlit ∧ E.retiresInRow = true ∧ (a = E.retireAddr ∨ a = E.retireAddr + 1#32))) :
    Memory.read t.mem a.toNat = Memory.read s.mem a.toNat := by
  have elsewhere (hr : E.RunsBlit) (hw : E.retiresInRow = true) : a ≠ E.retireAddr ∧ a ≠ E.retireAddr + 1#32 :=
    not_or.1 fun h => ha ⟨hr, hw, h⟩
  cases ht with
  | idle => rfl
  | publish E' _ _ _ _ => rw [completeSetup_mem]
  | pixel E' hE' hb hl _ _ =>
    obtain rfl : E' = E := Option.some.inj (hE'.symm.trans hE)
    exact read_retireMem_ne C (E'.consumed C s) s.mem a (elsewhere ⟨hb, hl⟩)
  | flush E' hE' hb hl _ _ _ =>
    obtain rfl : E' = E := Option.some.inj (hE'.symm.trans hE)
    exact read_retireMem_ne C E' s.mem a (elsewhere ⟨hb, hl⟩)
  | complete E' _ _ _ _ _ => rfl

/-- The banks, ACTIVE and TVALID are as they were. -/
def SameTable (s t : State) : Prop := t.kt0 = s.kt0 ∧ t.kt1 = s.kt1 ∧ t.active = s.active ∧ t.tvalid = s.tvalid

theorem sameTable_refl (s : State) : SameTable s s := ⟨rfl, rfl, rfl, rfl⟩

/-- An engine changes the table in the completion step of a SETUP alone, which publishes `GEN` of its parameters in the
shadow bank (R134). -/
theorem engineTurn_table (ht : EngineTurn C e s t) :
    SameTable s t ∨ ∃ E, s.engines[e]? = some E ∧ E.RunsSetup ∧ t.tvalid = true ∧ t.active = (!s.active) ∧
      t.bank t.active = .image E.params ∧ t.bank s.active = s.bank s.active := by
  cases ht with
  | publish E hE hb hl _ =>
    refine .inr ⟨E, hE, ⟨hb, hl⟩, rfl, rfl, ?_, ?_⟩
    · rw [completeSetup_active, completeSetup_bank, if_neg (by simp)]
    · rw [completeSetup_bank, if_pos rfl]
  | _ => exact .inl (sameTable_refl _)

/-- What an engine's turn keeps of the engine itself: all but PHASE and BUSY of what software sees, and while it stays
busy all but the counters and the window (R49, R169, R175, R176). -/
structure KeptByTurn (E F : Engine) : Prop where
  src : F.src = E.src
  dst : F.dst = E.dst
  srcLen : F.srcLen = E.srcLen
  dstLen : F.dstLen = E.dstLen
  params : F.params = E.params
  kresY : F.kresY = E.kresY
  kresI : F.kresI = E.kresI
  kresQ : F.kresQ = E.kresQ
  err : F.err = E.err
  sCfg : F.sCfg = E.sCfg
  sUninit : F.sUninit = E.sUninit
  sLen : F.sLen = E.sLen
  sIll : F.sIll = E.sIll
  lop : F.lop = E.lop
  lbank : F.lbank = E.lbank
  busy : F.busy = true → F = { E with lph := F.lph, col := F.col, wb := F.wb, w := F.w }
  idle : E.busy = false → F = E

theorem keptByTurn_refl (E : Engine) : KeptByTurn E E :=
  ⟨rfl, rfl, rfl, rfl, rfl, rfl, rfl, rfl, rfl, rfl, rfl, rfl, rfl, rfl, rfl, fun _ => rfl, fun _ => rfl⟩

theorem engineTurn_self (ht : EngineTurn C e s t) (hE : s.engines[e]? = some E) :
    ∃ F, t.engines[e]? = some F ∧ KeptByTurn E F := by
  have not_idle (hb : E.busy = true) {p : Prop} (h : E.busy = false) : p := Bool.noConfusion (hb.symm.trans h)
  cases ht with
  | idle => exact ⟨E, hE, keptByTurn_refl E⟩
  | publish E' hE' hb _ _ =>
    obtain rfl : E' = E := Option.some.inj (hE'.symm.trans hE)
    refine ⟨{ E' with busy := false }, ?_, { keptByTurn_refl E' with busy := nofun, idle := not_idle hb }⟩
    rw [completeSetup_engines]
    exact engine_at_set hE'
  | pixel E' hE' hb _ _ _ =>
    obtain rfl : E' = E := Option.some.inj (hE'.symm.trans hE)
    exact ⟨pixelStepped C s E', engine_at_set hE',
      { keptByTurn_refl E' with busy := fun _ => rfl, idle := not_idle hb }⟩
  | flush E' hE' hb _ _ _ _ =>
    obtain rfl : E' = E := Option.some.inj (hE'.symm.trans hE)
    exact ⟨E'.retired, engine_at_set hE', { keptByTurn_refl E' with busy := fun _ => rfl, idle := not_idle hb }⟩
  | complete E' hE' hb _ _ _ =>
    obtain rfl : E' = E := Option.some.inj (hE'.symm.trans hE)
    exact ⟨{ E' with phase := E'.lph, busy := false }, engine_at_set hE',
      { keptByTurn_refl E' with busy := nofun, idle := not_idle hb }⟩

/-- SETUP's completion step waits while its shadow bank is latched (R134). -/
theorem engineStep_of_latched_shadow {e' : Nat} (hE : s.engines[e]? = some E) (hr : E.RunsSetup)
    (hF : s.engines[e']? = some F) (hrF : F.RunsBlit) (hl : F.lbank = !s.active) : engineStep C e s = s := by
  have latched : F.latches (!s.active) = true := by simp [Engine.latches, hrF.1, hrF.2, hl]
  have counted : 0 < refcnt s (!s.active) := List.countP_pos_iff.2 ⟨F, List.mem_of_getElem? hF, latched⟩
  have blocked : setupEnabled s = false := decide_eq_false (Nat.ne_of_gt counted)
  simp [engineStep, hE, hr.1, hr.2, blocked]

/-- Settles O23. -/
theorem setupWaitsForTheShadowBank : Obligations.SetupWaitsForTheShadowBank := by
  intro C s e E rest e' F turn hr hF hrF hl
  rw [stepIn_engineTurn turn]
  exact congrArg Host.Outcome.next
    (engineStep_of_latched_shadow (s := { s with sched := rest ++ [.engine e] }) turn.2 hr hF hrF hl)

/-- Settles O38: its memory, its table, and the engine itself, each by the lemma over the turn. -/
theorem engineStepFrame : Obligations.EngineStepFrame := by
  intro C s e E rest t turn ht
  have hE : ({ s with sched := rest ++ [.engine e] } : State).engines[e]? = some E := turn.2
  have moved : t = engineStep C e { s with sched := rest ++ [.engine e] } :=
    (Host.Outcome.next.inj ((stepIn_engineTurn turn).symm.trans ht)).symm
  have hstep := engineStep_cases C e { s with sched := rest ++ [.engine e] }
  rw [← moved] at hstep
  obtain ⟨hothers, hhosts, hport, hresets⟩ := engineTurn_frame hstep
  obtain ⟨F, hF, k⟩ := engineTurn_self hstep hE
  refine ⟨hothers, hhosts, hport, hresets, ?_, ?_, F, hF, ?_⟩
  · intro a ha
    refine engineTurn_mem hstep hE a fun ⟨hr, hw, hbytes⟩ => ha ?_
    obtain ⟨hlo, hhi⟩ := of_decide_eq_true hw
    exact ⟨hr, hlo, hhi, hbytes⟩
  · intro hns
    rcases engineTurn_table hstep with hsame | ⟨E', hE', hr, -⟩
    · exact hsame
    · exact absurd (Option.some.inj (hE'.symm.trans hE) ▸ hr) hns
  · exact ⟨k.src, k.dst, k.srcLen, k.dstLen, k.params, k.kresY, k.kresI, k.kresQ, k.err, k.sCfg, k.sUninit, k.sLen,
      k.sIll, k.lop, k.lbank, k.busy, k.idle⟩

/-! ### A host's turn -/

theorem regWritten_table {off : BitVec 12} {v : Word} (ht : RegWritten C off v s t) : SameTable s t := by
  cases ht with
  | ignored => exact sameTable_refl s
  | illegal E r hE _ _ => rw [raiseError_of_engine _ hE]; exact sameTable_refl s
  | command E i t hE _ _ hx =>
    obtain ⟨F, hF, -⟩ := execIn_kept (s := { s with port := offEngine off }) C i hE
    rw [hF] at hx
    cases hx
    exact sameTable_refl s
  | stored E g _ _ _ => exact sameTable_refl s

theorem hostTurn_table {n : Nat} (ht : HostTurn C n s t) : SameTable s t := by
  cases ht with
  | register H off v t _ hr => exact (regWritten_table hr :)
  | _ => exact sameTable_refl s

/-- A busy engine is left by the update of an idle one: the two stand at different places. -/
theorem busy_at_set_of_idle {e' : Nat} {E' : Engine} (hE : s.engines[e]? = some E) (hb : E.busy = true)
    (hE' : s.engines[e']? = some E') (hb' : E'.busy = false) : (s.engines.set e' F)[e]? = some E := by
  have hne : e' ≠ e := by
    rintro rfl
    obtain rfl : E' = E := Option.some.inj (hE'.symm.trans hE)
    rw [hb] at hb'
    cases hb'
  exact (List.getElem?_set_ne hne).trans hE

/-- A write that takes place leaves every busy engine (R41). -/
theorem regWritten_busy {off : BitVec 12} {v : Word} (ht : RegWritten C off v s t) (hw : writeHeld s off = false)
    (hE : s.engines[e]? = some E) (hb : E.busy = true) : t.engines[e]? = some E := by
  cases ht with
  | ignored => exact hE
  | illegal E' r hE' hg _ =>
    rw [raiseError_of_engine _ hE']
    exact busy_at_set_of_idle hE hb hE' (idle_of_not_writeHeld hw hE' hg)
  | command E' i t hE' hg _ hx =>
    obtain ⟨F, hF, -⟩ := execIn_kept (s := { s with port := offEngine off }) C i hE'
    rw [hF] at hx
    cases hx
    exact busy_at_set_of_idle hE hb hE' (idle_of_not_writeHeld hw hE' hg)
  | stored E' g hE' hg _ => exact busy_at_set_of_idle hE hb hE' (idle_of_not_writeHeld hw hE' hg)

theorem hostTurn_busy {n : Nat} (ht : HostTurn C n s t) (hE : s.engines[e]? = some E) (hb : E.busy = true) :
    t.engines[e]? = some E := by
  cases ht with
  | register H off v t hw hr => exact regWritten_busy (s := s.setHost n H) hr hw hE hb
  | _ => exact hE

/-! ### Every step -/

/-- No step but its own and reset changes anything of a busy engine. -/
theorem stepIn_busy (hE : s.engines[e]? = some E) (hb : E.busy = true) (hreset : ∀ rest, s.sched ≠ .reset :: rest)
    (hown : ∀ rest, s.sched ≠ .engine e :: rest) (ht : stepIn C s = .next t) : t.engines[e]? = some E := by
  cases stepIn_cases C s t ht with
  | nobody _ => exact hE
  | host n rest t _ hh => exact hostTurn_busy hh hE hb
  | engine e' rest t hs he =>
    have hne : e ≠ e' := by
      rintro rfl
      exact hown rest hs
    exact ((engineTurn_frame he).1 e hne).trans hE
  | reset rest hs => exact absurd hs (hreset rest)

/-- Settles O47. -/
theorem busyEngineIsNotDisturbed : Obligations.BusyEngineIsNotDisturbed :=
  fun _ _ _ _ _ hE hb hreset hown => stepIn_busy hE hb hreset hown

/-- The turns of its own in which a busy engine becomes idle: the completion steps (R134, R176). -/
theorem engineTurn_busy_falls (ht : EngineTurn C e s t) (hE : s.engines[e]? = some E) (hb : E.busy = true)
    (hF : t.engines[e]? = some F) (hidle : F.busy = false) :
    (E.lop = .setup ∧ refcnt s (!s.active) = 0) ∨
      (E.lop = .blit ∧ E.rowLen ≤ E.col ∧ (E.rowLen : Int) ≤ E.wb) := by
  have goes_on {G : Engine} (hG : t.engines[e]? = some G) (hGb : G.busy = true) : False := by
    rw [Option.some.inj (hF.symm.trans hG), hGb] at hidle
    cases hidle
  cases ht with
  | idle => exact (goes_on hE hb).elim
  | publish E' hE' _ hl h0 =>
    obtain rfl : E' = E := Option.some.inj (hE'.symm.trans hE)
    exact .inl ⟨hl, h0⟩
  | pixel E' hE' hb' _ _ _ => exact (goes_on (engine_at_set hE') hb').elim
  | flush E' hE' hb' _ _ _ _ => exact (goes_on (engine_at_set hE') hb').elim
  | complete E' hE' _ hl hc hwb =>
    obtain rfl : E' = E := Option.some.inj (hE'.symm.trans hE)
    exact .inr ⟨hl, hc, hwb⟩

/-- Settles O48: by O47's lemma the step is reset's or the engine's own. -/
theorem busyFallsOnlyAtCompletion : Obligations.BusyFallsOnlyAtCompletion := by
  intro C s t e E F hE hb ht hF hidle
  by_cases hreset : ∃ rest, s.sched = .reset :: rest
  · exact .inl hreset
  by_cases hown : ∃ rest, s.sched = .engine e :: rest
  · obtain ⟨rest, hs⟩ := hown
    have hstep := engineStep_cases C e { s with sched := rest ++ [.engine e] }
    rw [Host.Outcome.next.inj ((stepIn_engineTurn ⟨hs, hE⟩).symm.trans ht)] at hstep
    exact .inr ⟨rest, hs, (engineTurn_busy_falls hstep hE hb hF hidle :)⟩
  · have hkept := stepIn_busy hE hb (not_exists.1 hreset) (not_exists.1 hown) ht
    rw [Option.some.inj (hF.symm.trans hkept), hb] at hidle
    cases hidle

/-- Settles O49. -/
theorem tableChangesOnlyByPublishOrReset : Obligations.TableChangesOnlyByPublishOrReset := by
  intro C s t ht
  cases stepIn_cases C s t ht with
  | nobody _ => exact .inl (sameTable_refl s)
  | host n rest t _ hh => exact .inl (hostTurn_table hh :)
  | engine e rest t hs he =>
    rcases engineTurn_table he with hsame | ⟨E, hE, hr, htv, ha, hnew, hold⟩
    · exact .inl hsame
    · exact .inr (.inr ⟨e, E, rest, ⟨hs, hE⟩, hr, htv, ha, hnew, hold⟩)
  | reset rest hs => exact .inr (.inl ⟨rest, hs⟩)

/-! ### Reset -/

theorem stepIn_resetTurn (hs : s.sched = .reset :: rest) :
    stepIn C s = .next (resetStep C { s with sched := rest ++ [.reset] }) := by
  simp [stepIn, scheduledStep, hs, takeTurn]

theorem statusWord_reset (C : Config) : statusWord false (Engine.reset C) = 0#32 := by
  simp [statusWord, Engine.stickyBits, Engine.reset, ErrCode.code]

/-- Settles O53: after the reset step every engine is `Engine.reset`. -/
theorem resetStepDiscardsEverythingButMemory : Obligations.ResetStepDiscardsEverythingButMemory := by
  intro C s rest hs
  refine ⟨_, stepIn_resetTurn hs, rfl, rfl, rfl, List.length_replicate, ?_, ?_⟩
  · intro h H hH
    show (s.hosts.map HostAgent.discardHeld)[h]? = some H.discardHeld
    rw [List.getElem?_map, hH]
    rfl
  · intro e E hE
    obtain rfl : E = Engine.reset C := List.eq_of_mem_replicate (List.mem_of_getElem? hE)
    exact ⟨rfl, statusWord_reset C, rfl, rfl, rfl, rfl, rfl, rfl, rfl, rfl, rfl⟩

/-- Settles O52: the one engine of REF is `Engine.reset`, read register by register. -/
theorem registersReadTheirResetValues : Obligations.RegistersReadTheirResetValues := by
  refine ⟨rfl, rfl, rfl, fun g => ?_⟩
  have hread : regRead Config.ref State.reset (regOff 0 g) = readReg Config.ref false (Engine.reset Config.ref) g :=
    regRead_regOff (by decide) rfl
  rw [hread]
  cases g <;> rfl

end Sys2Proof.Proofs

/-!
Pixel memory (spec 20_memory R60 to R76): its byte order, what each turn of a host agent writes, an access that the
platform does not back, and the bank that a running BLIT has latched.
-/

namespace Sys2Proof.Proofs

open Sys2Proof Sys2Proof.Machine Sys2Proof.Laws

variable {C : Config} {run : Acceptance} {s t : State} {h e e' : Nat} {H : HostAgent} {E E' : Engine}
  {off : BitVec 12} {v : Word} {a : Word} {px : Pixel} {op : HostOp} {ops : List HostOp} {rest : List Agent}

/-! ### Byte order -/

theorem toNat_read16 (m : Memory) (a : Word) :
    (Memory.read16 m a).toNat = (Memory.read m a.toNat).toNat + 256 * (Memory.read m (a + 1#32).toNat).toNat := by
  rw [Memory.read16, toNat_append_eq_add]
  omega

theorem toNat_low_byte (px : Pixel) : (px.extractLsb' 0 8).toNat = px.toNat % 256 := by
  simp

theorem toNat_high_byte (px : Pixel) : (px.extractLsb' 8 8).toNat = px.toNat / 256 := by
  have hpx := px.isLt
  rw [BitVec.extractLsb'_toNat, Nat.shiftRight_eq_div_pow]
  omega

theorem read_write16_low {m : Memory} (a : Word) (px : Pixel) (hm : Memory.wf m = true) :
    Memory.read (Memory.write16 m a px) a.toNat = px.extractLsb' 0 8 := by
  rw [read_write16 m a px _ hm, if_neg (toNat_add_one_ne a), if_pos rfl]

theorem read_write16_high {m : Memory} (a : Word) (px : Pixel) (hm : Memory.wf m = true) :
    Memory.read (Memory.write16 m a px) (a + 1#32).toNat = px.extractLsb' 8 8 := by
  rw [read_write16 m a px _ hm, if_pos rfl]

/-! ### The operations of a host agent -/

/-- An agent that goes on as it was: only its turn is over. -/
theorem turnOver_self (hH : s.hosts[h]? = some H) :
    turnOver s h H rest = { s with sched := rest ++ [.host h] } := by
  obtain ⟨hlt, rfl⟩ := List.getElem?_eq_some_iff.1 hH
  simp [turnOver]

theorem scheduledStep_wr_of_unaligned (turn : HostTurnOf s h H (.wr off v) ops rest) (ha : offAligned off = false) :
    scheduledStep C run s = .refused .unalignedRegisterAccess := by
  rw [scheduledStep_hostTurn turn, hostIssue, ha]
  rfl

theorem scheduledStep_rd_of_unaligned (turn : HostTurnOf s h H (.rd off) ops rest) (ha : offAligned off = false) :
    scheduledStep C run s = .refused .unalignedRegisterAccess := by
  rw [scheduledStep_hostTurn turn, hostIssue, ha]
  rfl

theorem scheduledStep_mw (turn : HostTurnOf s h H (.mw a px) ops rest) :
    scheduledStep C run s =
      if admitted16 C a then
        .next { turnOver s h { H with ops := ops } rest with mem := Memory.write16 s.mem a px }
      else .fault .hostAccessUnbacked :=
  scheduledStep_hostTurn turn

theorem scheduledStep_mr (turn : HostTurnOf s h H (.mr a) ops rest) :
    scheduledStep C run s =
      if admitted16 C a then
        .next (turnOver s h
          { H with ops := ops, seen := H.seen ++ [(Memory.read16 s.mem a).setWidth 32] } rest)
      else .fault .hostAccessUnbacked :=
  scheduledStep_hostTurn turn

/-- WAIT, by the value its read of STATUS returns (R101). -/
theorem scheduledStep_wait {k : BitVec 4} (turn : HostTurnOf s h H (.wait k) ops rest)
    (hv : regRead C s (regOff k.toNat .status) = v) :
    scheduledStep C run s =
      .next (turnOver s h (if v.getLsbD 0 then H else { H with ops := ops, seen := H.seen ++ [v] }) rest) := by
  have hH : s.hosts[h]? = some H := turn.2.1
  subst hv
  rw [scheduledStep_hostTurn turn, apply_ite (turnOver s h · rest), turnOver_self hH, apply_ite Host.Outcome.next]
  rfl

/-- What the turn of host agent `h` can do when `op` is its next operation: every operation moves the agent on, an MW
also writes its two bytes, and a WR that is not held also writes its register. -/
inductive Issued (C : Config) (s : State) (h : Nat) (rest : List Agent) : HostOp → State → Prop where
  | agentOnly (op : HostOp) (H : HostAgent) : Issued C s h rest op (turnOver s h H rest)
  | memory (H : HostAgent) (a : Word) (px : Pixel) :
      Issued C s h rest (.mw a px) { turnOver s h H rest with mem := Memory.write16 s.mem a px }
  | register (H : HostAgent) (off : BitVec 12) (v : Word) (t : State) :
      RegWritten C off v (turnOver s h H rest) t → Issued C s h rest (.wr off v) t

theorem stepIn_hostTurn_cases (turn : HostTurnOf s h H op ops rest) (ht : stepIn C s = .next t) :
    Issued C s h rest op t := by
  rw [stepIn] at ht
  cases op with
  | wr off v =>
    cases ha : offAligned off with
    | false => rw [scheduledStep_wr_of_unaligned turn ha] at ht; cases ht
    | true =>
      cases hw : writeHeld s off with
      | true => rw [scheduledStep_wr_of_held turn ha hw] at ht; cases ht; exact .agentOnly _ _
      | false =>
        rw [scheduledStep_wr_of_free turn ha hw] at ht
        exact .register _ off v t (regWrite_cases C off v _ t ht)
  | rd off =>
    cases ha : offAligned off with
    | false => rw [scheduledStep_rd_of_unaligned turn ha] at ht; cases ht
    | true => rw [scheduledStep_rd turn ha] at ht; cases ht; exact .agentOnly _ _
  | mw a px =>
    rw [scheduledStep_mw turn] at ht
    split at ht
    · cases ht; exact .memory _ a px
    · cases ht
  | mr a =>
    rw [scheduledStep_mr turn] at ht
    split at ht
    · cases ht; exact .agentOnly _ _
    · cases ht
  | wait k => rw [scheduledStep_wait turn rfl] at ht; cases ht; exact .agentOnly _ _

/-! ### What a host agent's turn leaves unchanged -/

/-- A register write reaches no engine but the one whose block it addresses (R28). -/
theorem regWritten_engines (ht : RegWritten C off v s t) (he : offEngine off ≠ e) :
    t.engines[e]? = s.engines[e]? := by
  cases ht with
  | ignored => rfl
  | illegal E r hE _ _ => rw [raiseError_of_engine _ hE]; exact List.getElem?_set_ne he
  | command E i t hE _ _ hx =>
    obtain ⟨F, hF, -⟩ := execIn_kept (s := { s with port := offEngine off }) C i hE
    rw [hF] at hx
    cases hx
    exact List.getElem?_set_ne he
  | stored E g _ _ _ => exact List.getElem?_set_ne he

theorem issued_engines (ht : Issued C s h rest op t) (he : ∀ off v, op = .wr off v → offEngine off ≠ e) :
    t.engines[e]? = s.engines[e]? := by
  cases ht with
  | register H off v t hr => exact (regWritten_engines hr (he off v rfl) :)
  | _ => rfl

theorem issued_table (ht : Issued C s h rest op t) : SameTable s t := by
  cases ht with
  | register H off v t hr => exact (regWritten_table hr :)
  | _ => exact sameTable_refl s

theorem issued_agents (ht : Issued C s h rest op t) :
    t.resets = s.resets ∧ t.sched = rest ++ [.host h] ∧ ∃ H, t.hosts = s.hosts.set h H := by
  cases ht with
  | agentOnly op H => exact ⟨rfl, rfl, H, rfl⟩
  | memory H a px => exact ⟨rfl, rfl, H, rfl⟩
  | register H off v t hr =>
    obtain ⟨hsched, hhosts, -, hresets⟩ := regWritten_frame hr
    exact ⟨hresets, hsched, H, hhosts⟩

theorem issued_mem (ht : Issued C s h rest op t) (ha : ∀ b px, op = .mw b px → a ≠ b ∧ a ≠ b + 1#32) :
    Memory.read t.mem a.toNat = Memory.read s.mem a.toNat := by
  cases ht with
  | agentOnly op H => rfl
  | memory H b px =>
    obtain ⟨hlow, hhigh⟩ := ha b px rfl
    exact read_write16_ne s.mem b px a hlow hhigh
  | register H off v t hr =>
    obtain ⟨-, -, hmem, -⟩ := regWritten_frame hr
    rw [hmem]
    rfl

/-! ### An access that the platform does not back -/

theorem engineStep_of_runsBlit (hE : s.engines[e]? = some E) (hr : E.RunsBlit) :
    engineStep C e s = blitStep C e E s := by
  simp [engineStep, hE, hr.1, hr.2]

theorem retireAdmitted_of_unbacked (hw : E.retiresInRow = true) (ha : admitted16 C E.retireAddr = false) :
    retireAdmitted C E = false := by
  simp [retireAdmitted, hw, ha]

/-- A pixel step whose read is not backed is not enabled. -/
theorem blitStep_of_unbacked_read (hc : E.col < E.rowLen) (ha : admitted16 C E.readAddr = false) :
    blitStep C e E s = s := by
  simp [blitStep, hc, pixelAdmitted, ha]

/-- Neither a pixel step nor a flush step is enabled when the column it would retire is not backed. -/
theorem blitStep_of_unbacked_write (hw : E.retiresInRow = true) (ha : admitted16 C E.retireAddr = false) :
    blitStep C e E s = s := by
  have hretire := retireAdmitted_of_unbacked hw ha
  obtain ⟨-, hwb⟩ := of_decide_eq_true hw
  by_cases hc : E.col < E.rowLen
  · simp [blitStep, hc, pixelAdmitted, hretire]
  · simp [blitStep, hc, hwb, hretire]

/-! ### The latched bank -/

theorem sameTable_bank (ht : SameTable s t) (b : BankIx) : t.bank b = s.bank b := by
  obtain ⟨h0, h1, -, -⟩ := ht
  rw [State.bank, State.bank, h0, h1]

/-- Publishing fills the shadow bank, which no running BLIT has latched (R134). -/
theorem engineTurn_latched_bank (ht : EngineTurn C e s t) (hE' : s.engines[e']? = some E') (hr : E'.RunsBlit) :
    t.bank E'.lbank = s.bank E'.lbank := by
  cases ht with
  | publish E _ _ _ h0 => rw [completeSetup_bank, if_pos (lbank_eq_active_of_refcnt h0 hE' hr)]
  | _ => rfl

/-! ### The obligations -/

/-- Settles O37: the engine's turn is its BLIT's step, and neither a pixel step nor a flush step is enabled. -/
theorem unbackedAccessLeavesTheEngineStuck : Obligations.UnbackedAccessLeavesTheEngineStuck := by
  intro C s e E rest turn hr hunbacked
  have stuck : blitStep C e E { s with sched := rest ++ [.engine e] } = { s with sched := rest ++ [.engine e] } := by
    rcases hunbacked with ⟨hc, ha⟩ | ⟨hlo, hhi, ha⟩
    · exact blitStep_of_unbacked_read hc ha
    · exact blitStep_of_unbacked_write (decide_eq_true ⟨hlo, hhi⟩) ha
  rw [stepIn_engineTurn turn, engineStep_of_runsBlit (s := { s with sched := rest ++ [.engine e] }) turn.2 hr, stuck]

/-- Settles O46: a host's turn leaves the whole table, and an engine's turn every latched bank. -/
theorem latchedBankIsNeverWritten : Obligations.LatchedBankIsNeverWritten := by
  intro C s t e E hE hr hreset ht
  cases stepIn_cases C s t ht with
  | nobody _ => rfl
  | host n rest t _ hh => exact sameTable_bank (hostTurn_table hh :) E.lbank
  | engine e' rest t _ he => exact (engineTurn_latched_bank he hE hr :)
  | reset rest hs => exact absurd hs (hreset rest)

/-- Settles O50, from what the turn can do (`stepIn_hostTurn_cases`). -/
theorem hostStepFrame : Obligations.HostStepFrame := by
  intro C s t h H op ops rest turn ht
  have issued := stepIn_hostTurn_cases turn ht
  obtain ⟨hkt0, hkt1, hactive, htvalid⟩ := issued_table issued
  obtain ⟨hresets, hsched, H', hhosts⟩ := issued_agents issued
  refine ⟨hkt0, hkt1, hactive, htvalid, hresets, hsched, ?_, fun _ => issued_engines issued,
    fun _ => issued_mem issued⟩
  intro h' hne
  rw [hhosts, List.getElem?_set_ne (Ne.symm hne)]

/-- Settles O51: the read as a sum of its bytes, each byte after a write, and the turn of an MW. -/
theorem pixelMemoryIsLittleEndian : Obligations.PixelMemoryIsLittleEndian := by
  refine ⟨toNat_read16, fun m a px hm => ⟨?_, ?_, wf_write16 m a px hm⟩, ?_⟩
  · rw [read_write16_low a px hm, toNat_low_byte]
  · rw [read_write16_high a px hm, toNat_high_byte]
  · intro C s h H a px ops rest turn ha
    exact (scheduledStep_mw turn).trans (if_pos ha)

/-- Settles O17. -/
theorem unalignedRegisterAccessIsRefused : Obligations.UnalignedRegisterAccessIsRefused := by
  intro C s h H off v ops rest hoff turn
  have ha : offAligned off = false := decide_eq_false hoff
  rcases turn with turn | turn
  · exact scheduledStep_rd_of_unaligned turn ha
  · exact scheduledStep_wr_of_unaligned turn ha

end Sys2Proof.Proofs

/-!
Command words (spec 30_encoding R90 to R95, R102): decoding and encoding invert each other, the words that no row of the
opcode map takes, and what writing one of them to CMD does.
-/

namespace Sys2Proof.Proofs

open Sys2Proof Sys2Proof.Machine Sys2Proof.Laws

variable {C : Config} {run : Acceptance} {s : State} {e cls ph tap : Nat} {E : Engine} {w : Word}

/-! ### A word by its fields -/

/-- OP is what stands above the low 28 bits (R91). -/
theorem bitField_op (w : Word) : bitField w 28 4 = w.toNat / 2 ^ 28 := by
  have hw := w.isLt
  unfold bitField
  omega

/-- The word of an OP without operands is the one whose reserved bits are 0 (R93). -/
theorem eq_opWord_iff {op : Nat} (hop : op < 2 ^ 4) :
    w = BitVec.ofNat 32 (op * 2 ^ 28) ↔ bitField w 28 4 = op ∧ bitField w 0 28 = 0 := by
  rw [← BitVec.toNat_inj, BitVec.toNat_ofNat, bitField_op, bitField]
  omega

theorem wellFormed_lookup_iff :
    (Instr.lookup cls ph tap).wellFormed = true ↔ cls < 2 ^ 16 ∧ ph < 2 ^ 8 ∧ tap < 2 ^ 4 := by
  simp only [Instr.wellFormed, clsFits, phFits, tapFits, Bool.and_eq_true, decide_eq_true_eq, and_assoc]

theorem toNat_encode_lookup (h : (Instr.lookup cls ph tap).wellFormed = true) :
    (encode (.lookup cls ph tap)).toNat = 3 * 2 ^ 28 + tap * 2 ^ 24 + ph * 2 ^ 16 + cls := by
  obtain ⟨hcls, hph, htap⟩ := wellFormed_lookup_iff.1 h
  simp only [encode, BitVec.toNat_ofNat]
  omega

/-- The fields of a LOOKUP word are the operands it was made of (R91). -/
theorem bitField_encode_lookup (h : (Instr.lookup cls ph tap).wellFormed = true) :
    bitField (encode (.lookup cls ph tap)) 28 4 = 3 ∧ bitField (encode (.lookup cls ph tap)) 0 16 = cls ∧
    bitField (encode (.lookup cls ph tap)) 16 8 = ph ∧ bitField (encode (.lookup cls ph tap)) 24 4 = tap := by
  obtain ⟨hcls, hph, htap⟩ := wellFormed_lookup_iff.1 h
  simp only [bitField, toNat_encode_lookup h]
  omega

/-- The command that a word's operand fields name. -/
def lookupOfFields (w : Word) : Instr := .lookup (bitField w 0 16) (bitField w 16 8) (bitField w 24 4)

theorem wellFormed_lookupOfFields (w : Word) : (lookupOfFields w).wellFormed = true :=
  wellFormed_lookup_iff.2
    ⟨Nat.mod_lt _ (by decide), Nat.mod_lt _ (by decide), Nat.mod_lt _ (by decide)⟩

/-- OP, TAP, PH and CLS are all the bits of a word: nothing of a LOOKUP word is ignored. -/
theorem encode_lookupOfFields (h : w.toNat / 2 ^ 28 = 3) : encode (lookupOfFields w) = w := by
  apply BitVec.eq_of_toNat_eq
  rw [lookupOfFields, toNat_encode_lookup (wellFormed_lookupOfFields w)]
  simp only [bitField]
  omega

/-! ### The decoder -/

theorem decode_of_op_three (h : w.toNat / 2 ^ 28 = 3) : decode w = .ok (lookupOfFields w) := by
  rcases decode_cases w with ⟨rfl, -⟩ | ⟨rfl, -⟩ | ⟨-, hdecode⟩ | ⟨-, -, hop, -⟩
  · exact absurd h (by decide)
  · exact absurd h (by decide)
  · exact hdecode
  · exact absurd h hop

/-- The decoder refuses a word exactly when the word selects no row (R93, R95). -/
theorem decode_error_iff :
    (∃ r, decode w = .error r) ↔ w ≠ 0x10000000#32 ∧ w ≠ 0x20000000#32 ∧ w.toNat / 2 ^ 28 ≠ 3 := by
  constructor
  · rintro ⟨r, hr⟩
    rcases decode_cases w with ⟨-, hok⟩ | ⟨-, hok⟩ | ⟨-, hok⟩ | ⟨hsetup, hblit, hop, -⟩
    · rw [hok] at hr; cases hr
    · rw [hok] at hr; cases hr
    · rw [hok] at hr; cases hr
    · exact ⟨hsetup, hblit, hop⟩
  · rintro ⟨hsetup, hblit, hop⟩
    rcases decode_cases w with ⟨h, -⟩ | ⟨h, -⟩ | ⟨h, -⟩ | ⟨-, -, -, herror⟩
    · exact absurd h hsetup
    · exact absurd h hblit
    · exact absurd h hop
    · exact herror

/-- Settles O1: SETUP and BLIT have one word each, and the fields of a LOOKUP word are its operands. -/
theorem decodeInvertsEncode : Obligations.DecodeInvertsEncode := by
  intro i hi
  cases i with
  | setup => rfl
  | blit => rfl
  | lookup cls ph tap =>
    obtain ⟨hop, hcls, hph, htap⟩ := bitField_encode_lookup hi
    rw [decode_of_op_three (bitField_op _ ▸ hop), lookupOfFields, hcls, hph, htap]

/-- Settles O2, by the row the word selects. -/
theorem encodeInvertsDecode : Obligations.EncodeInvertsDecode := by
  intro w i hi
  rcases decode_cases w with ⟨rfl, hok⟩ | ⟨rfl, hok⟩ | ⟨hop, hok⟩ | ⟨-, -, -, r, herror⟩
  · cases hok.symm.trans hi
    exact ⟨rfl, rfl⟩
  · cases hok.symm.trans hi
    exact ⟨rfl, rfl⟩
  · cases hok.symm.trans hi
    exact ⟨wellFormed_lookupOfFields w, encode_lookupOfFields hop⟩
  · cases herror.symm.trans hi

/-- Settles O3: of the words that select no row (`decode_error_iff`), those with OP 1 or 2 are all but the one word
of SETUP or BLIT (`eq_opWord_iff`). -/
theorem illegalWordsAreThoseOfNoRow : Obligations.IllegalWordsAreThoseOfNoRow := by
  intro w
  have hsetup : w = 0x10000000#32 ↔ bitField w 28 4 = 1 ∧ bitField w 0 28 = 0 := eq_opWord_iff (op := 1) (by decide)
  have hblit : w = 0x20000000#32 ↔ bitField w 28 4 = 2 ∧ bitField w 0 28 = 0 := eq_opWord_iff (op := 2) (by decide)
  rw [decode_error_iff, ne_eq, ne_eq, hsetup, hblit, ← bitField_op]
  omega

/-! ### IllegalCommand -/

/-- A LOOKUP whose operands are outside the configuration's ranges (R95, R153). -/
theorem execIn_lookup_of_out_of_range (hE : IdleAtPort s E) (hr : lookupInRange C cls ph tap = false) :
    execIn C (.lookup cls ph tap) s = .next (s.setEngine s.port (E.raised .illegalCommand)) := by
  obtain ⟨hE, hb⟩ := hE
  rw [execIn, performLookup_idle C cls ph tap hE hb, if_pos hr]

theorem acceptCommand_of_error {r : DecodeError} (hE : s.engines[e]? = some E) (hr : decode w = .error r) :
    acceptCommand run e w s = .next (s.setEngine e (E.raised .illegalCommand)) := by
  rw [acceptCommand, hr, ← raiseError_of_engine _ hE]

/-- Settles O4: the words by evaluation; REF has 3 phases and 5 taps, so that both LOOKUPs are out of its ranges. -/
theorem encodingExamplesDecode : Obligations.EncodingExamplesDecode := by
  refine ⟨rfl, rfl, rfl, rfl, rfl, rfl, rfl, rfl, rfl, rfl, rfl, rfl, fun s E hE => ⟨?_, ?_⟩⟩
  · exact (exec_eq_execIn _ s).trans (execIn_lookup_of_out_of_range hE (by decide))
  · exact (exec_eq_execIn _ s).trans (execIn_lookup_of_out_of_range hE (by decide))

/-- Settles O7: the write takes place, and its word is no command's. -/
theorem unmatchedWordRaisesIllegalCommand : Obligations.UnmatchedWordRaisesIllegalCommand := by
  intro s h H e E w r ops rest turn he hE hb hr
  have hE' : (turnOver s h { H with ops := ops } rest).engines[e]? = some E := hE
  rw [step, scheduledStep_wr_regOff turn he hE hb, regWrite_cmd he hE', acceptCommand_of_error hE' hr]
  rfl

/-! ### WAIT -/

/-- BUSY is bit 0 of STATUS (R30). -/
theorem getLsbD_zero_statusWord (tv : Bool) (E : Engine) : (statusWord tv E).getLsbD 0 = E.busy := by
  rw [getLsbD_statusWord, if_pos (by decide), statusLow, BitVec.getLsbD_append]
  simp

/-- Settles O18: WAIT goes by bit 0 of the STATUS it reads, which is BUSY. -/
theorem waitPollsUntilIdle : Obligations.WaitPollsUntilIdle := by
  intro C s h H e E ops rest turn hE
  have hH : s.hosts[h]? = some H := turn.2.1
  have hread := regRead_regOff (C := C) (g := .status) e.isLt hE
  rw [stepIn, scheduledStep_wait turn hread, readReg, getLsbD_zero_statusWord]
  cases E.busy with
  | true => exact congrArg Host.Outcome.next (turnOver_self hH)
  | false => rfl

end Sys2Proof.Proofs

/-!
FINAL clamps each channel value and packs it into its own bits (spec 30_encoding R97; 42_blit R177).
-/

namespace Sys2Proof.Proofs

open Sys2Proof

/-- The operator of R13 as a maximum and a minimum. -/
theorem clamp_zero_eq_max_min {m : Int} (hm : 0 ≤ m) (v : Int) : clamp v 0 m = max 0 (min v m) := by
  unfold clamp
  split_ifs <;> omega

/-- Packing keeps the channels apart: each is read back from its bits (R97). -/
theorem channels_pack {r g b : Nat} (hr : r < 2 ^ 5) (hg : g < 2 ^ 6) (hb : b < 2 ^ 5) :
    Pixel.red (BitVec.ofNat 16 (r * 2 ^ 11 + g * 2 ^ 5 + b)) = r ∧
    Pixel.green (BitVec.ofNat 16 (r * 2 ^ 11 + g * 2 ^ 5 + b)) = g ∧
    Pixel.blue (BitVec.ofNat 16 (r * 2 ^ 11 + g * 2 ^ 5 + b)) = b := by
  simp only [Pixel.red, Pixel.green, Pixel.blue, BitVec.toNat_ofNat]
  omega

/-- The clamped channels fit their bits, so that each is read back whole. -/
theorem channels_clampPack (c : Rgb) :
    ((Pixel.red c.clampPack : Nat) : Int) = max 0 (min c.r 31) ∧
    ((Pixel.green c.clampPack : Nat) : Int) = max 0 (min c.g 63) ∧
    ((Pixel.blue c.clampPack : Nat) : Int) = max 0 (min c.b 31) := by
  have hr := clamp_zero_eq_max_min (m := 31) (by decide) c.r
  have hg := clamp_zero_eq_max_min (m := 63) (by decide) c.g
  have hb := clamp_zero_eq_max_min (m := 31) (by decide) c.b
  obtain ⟨hred, hgreen, hblue⟩ := channels_pack (r := (clamp c.r 0 31).toNat) (g := (clamp c.g 0 63).toNat)
    (b := (clamp c.b 0 31).toNat) (by omega) (by omega) (by omega)
  rw [Rgb.clampPack, hred, hgreen, hblue]
  omega

/-- Settles O59: FINAL is a clamp and a packing of the channel values. -/
theorem finalClampsEveryChannel : Obligations.FinalClampsEveryChannel :=
  fun C a => channels_clampPack (C.CHANNELS a)

end Sys2Proof.Proofs

/-!
SETUP (spec 40_setup R122 to R134): what its acceptance checks, what it answers when the checks hold and when one fails,
and the completion step that publishes the table.
-/

namespace Sys2Proof.Proofs

open Sys2Proof Sys2Proof.Machine Sys2Proof.Laws

variable {C : Config} {s : State} {e : Nat} {E : Engine} {q : Params} {rest : List Agent}

/-! ### The completion step -/

/-- With every running BLIT on the active bank, nobody reads the shadow bank (R48). -/
theorem refcnt_shadow_eq_zero
    (h : ∀ (e' : Nat) (F : Engine), s.engines[e']? = some F → F.RunsBlit → F.lbank = s.active) :
    refcnt s (!s.active) = 0 := by
  refine List.countP_eq_zero.2 fun F hmem hl => ?_
  obtain ⟨e', hF⟩ := List.mem_iff_getElem?.1 hmem
  obtain ⟨hr, hshadow⟩ : F.RunsBlit ∧ F.lbank = !s.active := by simpa [Engine.latches] using hl
  exact Bool.not_ne_self s.active (hshadow.symm.trans (h e' F hF hr))

/-- SETUP's completion step is enabled once nobody reads the shadow bank (R134). -/
theorem engineStep_of_free_shadow (hE : s.engines[e]? = some E) (hr : E.RunsSetup) (h0 : refcnt s (!s.active) = 0) :
    engineStep C e s = completeSetup e E s := by
  have enabled : setupEnabled s = true := decide_eq_true h0
  simp [engineStep, hE, hr.1, hr.2, enabled]

/-- The table published is `GEN` of the engine's parameters (R127, R134). -/
theorem completeSetup_tap_published (c p k : Nat) :
    (completeSetup e E s).tap C (!s.active) c p k = C.gen E.params c p k := by
  rw [State.tap, completeSetup_bank, if_neg (by simp), Bank.tap]

/-- Settles O22: the step is enabled (`refcnt_shadow_eq_zero`), and is `completeSetup`. -/
theorem setupCompletionPublishesTheTable : Obligations.SetupCompletionPublishesTheTable := by
  intro C s e E rest turn hr hfree
  have publishes : stepIn C s = .next (completeSetup e E { s with sched := rest ++ [.engine e] }) := by
    rw [stepIn_engineTurn turn]
    exact congrArg Host.Outcome.next (engineStep_of_free_shadow turn.2 hr (refcnt_shadow_eq_zero hfree))
  exact ⟨_, publishes, completeSetup_active .., completeSetup_tvalid .., completeSetup_tap_published,
    (completeSetup_bank ..).trans (if_pos rfl), completeSetup_engines .., completeSetup_mem .., completeSetup_hosts ..,
    completeSetup_port .., completeSetup_resets .., completeSetup_sched ..⟩

/-! ### Acceptance -/

/-- The format check by the fields of `P_FMT`: the widths built are 16 and 16 (R36, R123). -/
theorem fmtMatches_iff :
    q.fmtMatches = true ↔ bitField q.fmt 0 8 = 16 ∧ bitField q.fmt 8 8 = 16 ∧ bitField q.fmt 16 16 = 0 := by
  have hlt := q.fmt.isLt
  rw [Params.fmtMatches, decide_eq_true_iff]
  unfold bitField inBits outBits
  omega

theorem accepts_iff :
    C.accepts q = true ↔
      (bitField q.fmt 0 8 = 16 ∧ bitField q.fmt 8 8 = 16 ∧ bitField q.fmt 16 16 = 0) ∧ C.VALID q = true := by
  rw [Config.accepts, Bool.and_eq_true, fmtMatches_iff]

/-- The checks of R122 fail when one of the three fields or VALID does. -/
theorem not_accepts_iff :
    ¬ C.accepts q = true ↔
      bitField q.fmt 0 8 ≠ 16 ∨ bitField q.fmt 8 8 ≠ 16 ∨ bitField q.fmt 16 16 ≠ 0 ∨ C.VALID q = false := by
  rw [accepts_iff, ← Bool.not_eq_true]
  tauto

theorem execIn_setup_of_accepts (hE : IdleAtPort s E) (ha : C.accepts E.params = true) :
    execIn C .setup s = .next (s.setEngine s.port { E with err := .none, lop := .setup, busy := true }) := by
  obtain ⟨hE, hb⟩ := hE
  rw [execIn, acceptSetup_idle C hE hb, if_pos ha]

theorem execIn_setup_of_not_accepts (hE : IdleAtPort s E) (ha : ¬ C.accepts E.params = true) :
    execIn C .setup s = .next (s.setEngine s.port (E.raised .configuration)) := by
  obtain ⟨hE, hb⟩ := hE
  rw [execIn, acceptSetup_idle C hE hb, if_neg ha]

/-- Settles O19: the fields and VALID are what SETUP checks (`accepts_iff`). -/
theorem setupIsAccepted : Obligations.SetupIsAccepted := by
  intro s E hE hin hout hhigh
  have accepted (C : Config) (hv : C.VALID E.params = true) :=
    execIn_setup_of_accepts hE (accepts_iff.2 ⟨⟨hin, hout, hhigh⟩, hv⟩)
  exact ⟨accepted, fun hv => (exec_eq_execIn .setup s).trans (accepted Config.ref hv)⟩

/-- Settles O20: a failed check raises ConfigurationError (`not_accepts_iff`), which sets ERR and S_CFG alone. -/
theorem setupOutOfRangeRaisesConfigurationError : Obligations.SetupOutOfRangeRaisesConfigurationError := by
  intro s E hE
  have raises (C : Config) (hbad : bitField E.params.fmt 0 8 ≠ 16 ∨ bitField E.params.fmt 8 8 ≠ 16 ∨
      bitField E.params.fmt 16 16 ≠ 0 ∨ C.VALID E.params = false) :=
    execIn_setup_of_not_accepts hE (not_accepts_iff.2 hbad)
  exact ⟨raises, fun hbad => (exec_eq_execIn .setup s).trans (raises Config.ref hbad)⟩

end Sys2Proof.Proofs

/-!
LOOKUP (spec 41_lookup R152 to R157): the range check, then the table, then one tap of the active bank.
-/

namespace Sys2Proof.Proofs

open Sys2Proof Sys2Proof.Machine Sys2Proof.Laws

variable {C : Config} {s : State} {E : Engine} {cls ph tap : Nat}

/-! ### The three outcomes -/

theorem lookupInRange_iff : lookupInRange C cls ph tap = true ↔ cls < C.NCLASS ∧ ph < C.P ∧ tap < C.T :=
  decide_eq_true_iff

theorem lookupInRange_eq_false_iff :
    lookupInRange C cls ph tap = false ↔ C.NCLASS ≤ cls ∨ C.P ≤ ph ∨ C.T ≤ tap := by
  rw [← Bool.not_eq_true, lookupInRange_iff]
  omega

/-- The engine with a tap in its result registers and no error (R39, R152). -/
def withResults (E : Engine) (k : Yiq) : Engine :=
  { E with kresY := truncWord k.y, kresI := truncWord k.i, kresQ := truncWord k.q, err := .none }

/-- A result register holds the component modulo 2^32 (R13, R39). -/
theorem toNat_truncWord (v : Int) : ((truncWord v).toNat : Int) = v % 2 ^ 32 := by
  rw [truncWord, BitVec.toNat_ofInt]
  exact Int.toNat_of_nonneg (Int.emod_nonneg v (by decide))

/-- Operands in range, but nothing published (R154). -/
theorem execIn_lookup_of_no_table (hE : IdleAtPort s E) (hr : lookupInRange C cls ph tap = true)
    (ht : s.tvalid = false) :
    execIn C (.lookup cls ph tap) s = .next (s.setEngine s.port (E.raised .uninitializedTable)) := by
  obtain ⟨hE, hb⟩ := hE
  rw [execIn, performLookup_idle C cls ph tap hE hb, if_neg (by simp [hr]), if_pos ht]

/-- Operands in range and a published table (R152). -/
theorem execIn_lookup_of_table (hE : IdleAtPort s E) (hr : lookupInRange C cls ph tap = true)
    (ht : s.tvalid = true) :
    execIn C (.lookup cls ph tap) s =
      .next (s.setEngine s.port (withResults E (s.tap C s.active cls ph tap))) := by
  obtain ⟨hE, hb⟩ := hE
  rw [execIn, performLookup_idle C cls ph tap hE hb, if_neg (by simp [hr]), if_neg (by simp [ht]), withResults]

/-- Settles O24: the tap goes to the result registers (`execIn_lookup_of_table`), each component modulo 2^32. -/
theorem lookupReadsOneTapOfTheActiveBank : Obligations.LookupReadsOneTapOfTheActiveBank := by
  intro s E cls ph tap hE ht
  have answers (C : Config) (hcls : cls < C.NCLASS) (hph : ph < C.P) (htap : tap < C.T) :=
    execIn_lookup_of_table hE (lookupInRange_iff.2 ⟨hcls, hph, htap⟩) ht
  refine ⟨fun C hcls hph htap => ⟨_, answers C hcls hph htap, rfl, ?_⟩,
    fun hcls hph htap => ⟨_, (exec_eq_execIn _ s).trans (answers Config.ref hcls hph htap), rfl, ?_⟩⟩
  all_goals exact ⟨toNat_truncWord _, toNat_truncWord _, toNat_truncWord _⟩

/-- Settles O25: the range is checked before the table, and IllegalCommand sets ERR and S_ILL alone. -/
theorem lookupOutOfRangeRaisesIllegalCommand : Obligations.LookupOutOfRangeRaisesIllegalCommand := by
  intro s E cls ph tap hE
  have raises (C : Config) (hbad : C.NCLASS ≤ cls ∨ C.P ≤ ph ∨ C.T ≤ tap) :=
    execIn_lookup_of_out_of_range hE (lookupInRange_eq_false_iff.2 hbad)
  exact ⟨raises, fun hbad => (exec_eq_execIn _ s).trans (raises Config.ref hbad)⟩

/-- Settles O26: the range check passes, the table check fails, and UninitializedTable sets ERR and S_UNINIT alone. -/
theorem lookupWithoutTableRaisesUninitializedTable : Obligations.LookupWithoutTableRaisesUninitializedTable := by
  intro s E cls ph tap hE ht
  have raises (C : Config) (hcls : cls < C.NCLASS) (hph : ph < C.P) (htap : tap < C.T) :=
    execIn_lookup_of_no_table hE (lookupInRange_iff.2 ⟨hcls, hph, htap⟩) ht
  exact ⟨raises, fun hcls hph htap => (exec_eq_execIn _ s).trans (raises Config.ref hcls hph htap)⟩

/-! ### The worked example -/

/-- A bank that SETUP filled from `q` reads as `GEN(q)` (R127). -/
theorem tap_of_image {b : BankIx} {q : Params} (h : s.bank b = .image q) (c p k : Nat) :
    s.tap C b c p k = C.gen q c p k := by
  rw [State.tap, h, Bank.tap]

/-- Full red as NEUTRAL decodes it: `Y1`, `I1`, `Q1` of 95_test_vectors V7. -/
theorem ref_decode_red_neutral :
    Config.ref.DECODE (Config.ref.REP 0xF800) Config.ref.NEUTRAL = ⟨19635, 39015, 13770⟩ := by decide

/-- The last tap of full red at phase 1: `256 * 19635 - 2 * C[1]`, with `C[1] = -1936980` (R211). -/
theorem ref_gen_red_neutral_phase_one : Config.ref.gen Config.ref.NEUTRAL 0xF800 1 4 = ⟨8900520, 0, 0⟩ := by
  rw [Config.gen, ref_decode_red_neutral]
  decide

/-- The last tap of full red at phase 0: `256 * 19635 - 2 * C[0]`, with `C[0] = 9987840` (R211). -/
theorem ref_gen_red_neutral_phase_zero : Config.ref.gen Config.ref.NEUTRAL 0xF800 0 4 = ⟨-14949120, 0, 0⟩ := by
  rw [Config.gen, ref_decode_red_neutral]
  decide

/-- Settles O27: the words by evaluation; each LOOKUP reads a tap of `GEN(NEUTRAL)` (`tap_of_image`), whose value is
`ref_gen_red_neutral_phase_one` or `ref_gen_red_neutral_phase_zero`. -/
theorem lookupWorkedExample : Obligations.LookupWorkedExample := by
  intro s E hE ht hbank
  refine ⟨rfl, ?_, rfl, ?_⟩
  · rw [exec_eq_execIn, execIn_lookup_of_table hE (by decide) ht, tap_of_image hbank, ref_gen_red_neutral_phase_one]
    rfl
  · rw [exec_eq_execIn, execIn_lookup_of_table hE (by decide) ht, tap_of_image hbank, ref_gen_red_neutral_phase_zero]
    rfl

end Sys2Proof.Proofs

/-!
BLIT, command by command and step by step (spec 42_blit R161 to R176): what its acceptance answers, and what the pixel,
flush and completion steps do.
-/

namespace Sys2Proof.Proofs

open Sys2Proof Sys2Proof.Machine Sys2Proof.Laws

variable {C : Config} {s : State} {e : Nat} {E : Engine} {m : Memory} {k0 : Yiq} {ks : List Yiq}

/-! ### Acceptance -/

theorem execIn_blit_of_no_table (C : Config) (hE : IdleAtPort s E) (ht : s.tvalid = false) :
    execIn C .blit s = .next (s.setEngine s.port (E.raised .uninitializedTable)) := by
  obtain ⟨hE, hb⟩ := hE
  rw [execIn, acceptBlit_idle C hE hb, if_pos ht]

theorem execIn_blit_of_lengths_ne (C : Config) (hE : IdleAtPort s E) (ht : s.tvalid = true)
    (hl : E.srcLen ≠ E.dstLen) :
    execIn C .blit s = .next (s.setEngine s.port (E.raised .lengthMismatch)) := by
  obtain ⟨hE, hb⟩ := hE
  rw [execIn, acceptBlit_idle C hE hb, if_neg (by simp [ht]), if_pos hl]

theorem execIn_blit_of_accepted (C : Config) (hE : IdleAtPort s E) (ht : s.tvalid = true)
    (hl : E.srcLen = E.dstLen) :
    execIn C .blit s = .next (s.setEngine s.port (E.startBlit C s.active)) := by
  obtain ⟨hE, hb⟩ := hE
  rw [execIn, acceptBlit_idle C hE hb, if_neg (by simp [ht]), if_neg (not_not_intro hl)]

/-- Settles O28: the checks pass (`execIn_blit_of_accepted`), and REF has LEFT 2 and T 5. -/
theorem blitIsAccepted : Obligations.BlitIsAccepted := by
  intro s E hE ht hl
  have accepted (C : Config) := execIn_blit_of_accepted C hE ht hl
  exact ⟨accepted, (exec_eq_execIn .blit s).trans (accepted Config.ref)⟩

/-- Settles O29: the table is checked first, and UninitializedTable sets ERR and S_UNINIT alone. -/
theorem blitWithoutTableRaisesUninitializedTable : Obligations.BlitWithoutTableRaisesUninitializedTable := by
  intro s E hE ht
  have raises (C : Config) := execIn_blit_of_no_table C hE ht
  exact ⟨raises, (exec_eq_execIn .blit s).trans (raises Config.ref)⟩

/-- Settles O30: the table check passes, and LengthMismatch sets ERR and S_LEN alone. -/
theorem blitOfUnequalLengthsRaisesLengthMismatch : Obligations.BlitOfUnequalLengthsRaisesLengthMismatch := by
  intro s E hE ht hl
  have raises (C : Config) := execIn_blit_of_lengths_ne C hE ht hl
  exact ⟨raises, (exec_eq_execIn .blit s).trans (raises Config.ref)⟩

/-! ### Retiring slot 0 -/

theorem retiresInRow_iff : E.retiresInRow = true ↔ 0 ≤ E.wb ∧ E.wb < E.rowLen := decide_eq_true_iff

theorem retireMem_of_in_row (h : 0 ≤ E.wb ∧ E.wb < E.rowLen) :
    retireMem C E m = Memory.write16 m E.retireAddr (C.final E.slot0) := by
  rw [retireMem, retiresInRow_iff.2 h, cond_true]

theorem retireMem_of_dropped (h : ¬ (0 ≤ E.wb ∧ E.wb < E.rowLen)) : retireMem C E m = m := by
  rw [retireMem, Bool.eq_false_iff.2 fun hw => h (retiresInRow_iff.1 hw), cond_false]

/-- Memory after slot 0 of a known window is retired (R174). -/
theorem retireMem_of_window (hw : E.w = k0 :: ks) :
    retireMem C E m =
      if 0 ≤ E.wb ∧ E.wb < E.rowLen then Memory.write16 m E.retireAddr (C.final k0) else m := by
  have hslot : E.slot0 = k0 := by rw [Engine.slot0, hw, List.headD_cons]
  split
  · next h => rw [retireMem_of_in_row h, hslot]
  · next h => exact retireMem_of_dropped h

theorem retired_of_window (hw : E.w = k0 :: ks) :
    E.retired = { E with w := ks ++ [Yiq.zero], wb := E.wb + 1 } := by
  rw [Engine.retired, hw, shiftWindow]

theorem retireAdmitted_of_backed (h : 0 ≤ E.wb ∧ E.wb < E.rowLen → admitted16 C E.retireAddr = true) :
    retireAdmitted C E = true := by
  cases hw : E.retiresInRow with
  | false => rw [retireAdmitted, hw]; rfl
  | true => rw [retireAdmitted, h (retiresInRow_iff.1 hw), Bool.or_true]

/-! ### The step that a running BLIT takes -/

theorem blitStep_pixel (hc : E.col < E.rowLen) (hread : admitted16 C E.readAddr = true)
    (hwrite : retireAdmitted C E = true) : blitStep C e E s = pixelStep C e E s := by
  rw [blitStep, if_pos hc, if_pos (by rw [pixelAdmitted, hread, hwrite]; rfl)]

theorem blitStep_flush (hc : E.rowLen ≤ E.col) (hwb : E.wb < E.rowLen) (hwrite : retireAdmitted C E = true) :
    blitStep C e E s = flushStep C e E s := by
  rw [blitStep, if_neg (Nat.not_lt.2 hc), if_pos hwb, if_pos hwrite]

theorem blitStep_complete (hc : E.rowLen ≤ E.col) (hwb : (E.rowLen : Int) ≤ E.wb) :
    blitStep C e E s = completeBlit e E s := by
  rw [blitStep, if_neg (Nat.not_lt.2 hc), if_neg (Int.not_lt.2 hwb)]

/-- In the turn of an engine that runs a BLIT the machine takes the BLIT's step (R168). -/
theorem stepIn_blitTurn {rest : List Agent} (turn : EngineTurnOf s e E rest) (hr : E.RunsBlit) :
    stepIn C s = .next (blitStep C e E { s with sched := rest ++ [.engine e] }) := by
  rw [stepIn_engineTurn turn, engineStep_of_runsBlit (s := { s with sched := rest ++ [.engine e] }) turn.2 hr]

/-- Settles O34: the step is `pixelStep`, and slot 0 of the window with the kernel added is `k0`. -/
theorem pixelStepDoesTheFiveSubActions : Obligations.PixelStepDoesTheFiveSubActions := by
  intro C s e E rest k0 ks turn hr hc hread hwrite hsum
  have hwindow : (E.consumed C { s with sched := rest ++ [.engine e] }).w = k0 :: ks := hsum
  rw [stepIn_blitTurn turn hr, blitStep_pixel hc hread (retireAdmitted_of_backed hwrite), pixelStep_eq, pixelStepped,
    retireMem_of_window hwindow, retired_of_window hwindow]
  rfl

/-- Settles O35: the step is `flushStep`, and WB is below the row's length. -/
theorem flushStepRetiresOneSlot : Obligations.FlushStepRetiresOneSlot := by
  intro C s e E rest k0 ks turn hr hc hwb hwrite hwindow
  have in_row : (0 ≤ E.wb ∧ E.wb < E.rowLen) ↔ 0 ≤ E.wb := and_iff_left hwb
  rw [stepIn_blitTurn turn hr,
    blitStep_flush (Nat.le_of_eq hc.symm) hwb (retireAdmitted_of_backed fun ⟨hlo, _⟩ => hwrite hlo), flushStep,
    retireMem_of_window hwindow, retired_of_window hwindow, if_congr in_row rfl rfl]
  rfl

/-- Settles O36: the step is `completeBlit`. -/
theorem blitCompletionReturnsThePhase : Obligations.BlitCompletionReturnsThePhase := by
  intro C s e E rest turn hr hc hwb
  rw [stepIn_blitTurn turn hr, blitStep_complete (Nat.le_of_eq hc.symm) hwb]
  rfl

end Sys2Proof.Proofs

/-!
The closed form of a row (spec 42_blit R165, R181, R183): what lands at one position of the line of columns, with the
dropped columns counted from 0, and the rows for which the sum has a short form.
-/

namespace Sys2Proof.Proofs

open Sys2Proof Sys2Proof.Machine Sys2Proof.Laws

variable {C : Config} {b : Bank} {px : Nat → Pixel} {ph0 len m n x : Nat}

/-! ### Sums over a range of pixels -/

/-- Leading pixels that contribute nothing. -/
theorem yiq_sum_drop_left {f : Nat → Yiq} (lo k : Nat) (h : ∀ n, n < lo → f n = Yiq.zero) :
    Yiq.sum ((List.range (lo + k)).map f) = Yiq.sum ((List.range k).map fun t => f (lo + t)) := by
  have hlead : Yiq.sum ((List.range lo).map f) = Yiq.zero :=
    yiq_sum_zero _ (by simpa using fun n hn => h n hn)
  rw [List.range_add, List.map_append, yiq_sum_append, hlead, yiq_zero_add, List.map_map]
  rfl

/-- Trailing pixels that contribute nothing. -/
theorem yiq_sum_drop_right {f : Nat → Yiq} {k len : Nat} (hk : k ≤ len)
    (h : ∀ n, k ≤ n → n < len → f n = Yiq.zero) :
    Yiq.sum ((List.range len).map f) = Yiq.sum ((List.range k).map f) := by
  obtain ⟨d, rfl⟩ := Nat.exists_eq_add_of_le hk
  have htail : Yiq.sum (((List.range d).map (k + ·)).map f) = Yiq.zero :=
    yiq_sum_zero _ (by simpa using fun n hn => h (k + n) (by omega) (by omega))
  rw [List.range_add, List.map_append, yiq_sum_append, htail, yiq_add_zero]

theorem yiq_sum_perm {l l' : List Yiq} (h : l.Perm l') : Yiq.sum l = Yiq.sum l' := by
  refine yiq_eq ?_ ?_ ?_
  · rw [yiq_sum_y, yiq_sum_y]; exact (h.map _).sum_eq
  · rw [yiq_sum_i, yiq_sum_i]; exact (h.map _).sum_eq
  · rw [yiq_sum_q, yiq_sum_q]; exact (h.map _).sum_eq

/-- The taps in the order of the pixels they come from are the taps in falling order. -/
theorem yiq_sum_reflect (f : Nat → Yiq) (k : Nat) :
    Yiq.sum ((List.range k).map fun t => f (k - 1 - t)) = Yiq.sum ((List.range k).map f) := by
  have hrev : (List.range k).map (fun t => f (k - 1 - t)) = ((List.range k).map f).reverse := by
    refine List.ext_getElem (by simp) fun t h1 h2 => ?_
    simp
  rw [hrev]
  exact yiq_sum_perm (List.reverse_perm _)

/-! ### What a pixel contributes -/

/-- What input pixel `n` adds at position `x`, the position of column `m` being `m + LEFT`: unlike columns, positions
also number what is dropped left of the row (R166, R174). -/
def landing (C : Config) (b : Bank) (px : Nat → Pixel) (ph0 x n : Nat) : Yiq :=
  if n ≤ x ∧ x - n < C.T then b.tap C (C.CLASSIFY (C.ADJ (px n))) (rowPhase C ph0 n) (x - n) else Yiq.zero

theorem landing_of_later (h : x < n) : landing C b px ph0 x n = Yiq.zero := if_neg (by omega)

theorem landing_of_passed (h : n + C.T ≤ x) : landing C b px ph0 x n = Yiq.zero := if_neg (by omega)

/-- Tap `t` of a pixel lands `t` positions after its first. -/
theorem landing_add {t : Nat} (ht : t < C.T) :
    landing C b px ph0 (n + t) n = b.tap C (C.CLASSIFY (C.ADJ (px n))) (rowPhase C ph0 n) t := by
  rw [landing, if_pos (by omega), Nat.add_sub_cancel_left]

/-- What pixels 0 to `k - 1` add at position `x`. -/
def landed (C : Config) (b : Bank) (px : Nat → Pixel) (ph0 k x : Nat) : Yiq :=
  Yiq.sum ((List.range k).map (landing C b px ph0 x))

theorem columnSum_eq_landed (C : Config) (b : Bank) (px : Nat → Pixel) (ph0 len m : Nat) :
    columnSum C b px ph0 len m = landed C b px ph0 len (m + C.LEFT) := rfl

theorem landed_zero : landed C b px ph0 0 x = Yiq.zero := rfl

theorem landed_succ (k : Nat) :
    landed C b px ph0 (k + 1) x = (landed C b px ph0 k x).add (landing C b px ph0 x k) := by
  simp [landed, List.range_succ, yiq_sum_append, Yiq.sum]

/-- A position that every tap has passed. -/
theorem landed_of_passed {k : Nat} (h : k + C.T ≤ x + 1) : landed C b px ph0 k x = Yiq.zero := by
  refine yiq_sum_zero _ ?_
  simpa using fun n hn => landing_of_passed (n := n) (by omega)

/-- The pixels after a position add nothing to it. -/
theorem landed_of_later {k : Nat} (hk : k ≤ len) (hx : x < k) :
    landed C b px ph0 len x = landed C b px ph0 k x :=
  yiq_sum_drop_right hk fun _ h _ => landing_of_later (by omega)

/-! ### Flat rows -/

/-- In a row of one class an interior position gets each tap once, from the pixel it belongs to (R181). -/
theorem landed_flat {cls : Nat} (hflat : ∀ n, n < len → C.CLASSIFY (C.ADJ (px n)) = cls) (hlo : C.T ≤ x + 1)
    (hhi : x < len) :
    landed C b px ph0 len x =
      Yiq.sum ((List.range C.T).map fun t => b.tap C cls (rowPhase C ph0 (x - t)) t) := by
  have hpixels : landed C b px ph0 len x =
      Yiq.sum ((List.range C.T).map fun j => landing C b px ph0 x (x + 1 - C.T + j)) := by
    rw [landed_of_later (k := x + 1 - C.T + C.T) (by omega) (by omega)]
    exact yiq_sum_drop_left _ _ fun n hn => landing_of_passed (by omega)
  rw [hpixels, ← yiq_sum_reflect]
  congr 1
  refine List.map_congr_left fun t ht => ?_
  have ht' : t < C.T := List.mem_range.1 ht
  have hpix : x + 1 - C.T + (C.T - 1 - t) = x - t := by omega
  have hpos : x = (x - t) + t := by omega
  rw [hpix, ← hflat (x - t) (by omega)]
  conv_lhs => rw [hpos]
  rw [Nat.add_sub_cancel, landing_add ht']

/-- The phase of the pixel whose tap `t` lands on column `m`, from the column's own phase (R129, R165). -/
theorem flatPhase_rowPhase {t : Nat} (ht : t ≤ m + C.LEFT) :
    C.flatPhase (rowPhase C ph0 m) t = rowPhase C ph0 (m + C.LEFT - t) := by
  have hphase : ((rowPhase C ph0 m : Nat) : Int) + ((C.LEFT : Int) - t) * C.STEP ≡
      ((ph0 + (m + C.LEFT - t) * C.STEP : Nat) : Int) [ZMOD C.P] := by
    have hcol : ((rowPhase C ph0 m : Nat) : Int) ≡ ((ph0 + m * C.STEP : Nat) : Int) [ZMOD C.P] := by
      rw [rowPhase, Int.natCast_mod]
      exact Int.mod_modEq _ _
    have hdist : ((ph0 + m * C.STEP : Nat) : Int) + ((C.LEFT : Int) - t) * C.STEP =
        ((ph0 + (m + C.LEFT - t) * C.STEP : Nat) : Int) := by
      push_cast [Nat.cast_sub ht]
      ring
    exact hdist ▸ hcol.add_right _
  rw [Config.flatPhase, hphase.eq, ← Int.natCast_mod, Int.toNat_natCast, rowPhase]

/-- An interior column of a flat row accumulates the flat-field sum at its own phase (R181). -/
theorem columnSum_flat (hC : C.ScalarsOk) {q : Params} {cls : Nat}
    (hflat : ∀ n, n < len → C.CLASSIFY (C.ADJ (px n)) = cls) (hlo : C.RIGHT ≤ m) (hhi : m + C.LEFT < len) :
    columnSum C (.image q) px ph0 len m = C.flatSum q cls (rowPhase C ph0 m) := by
  have hleft := hC.LEFT_lt
  have hT := hC.T_pos
  have hfull : C.T ≤ m + C.LEFT + 1 := by
    have hright : C.T - 1 - C.LEFT ≤ m := hlo
    omega
  rw [columnSum_eq_landed, landed_flat hflat hfull hhi, Config.flatSum]
  congr 1
  refine List.map_congr_left fun t ht => ?_
  have ht' : t < C.T := List.mem_range.1 ht
  rw [flatPhase_rowPhase (by omega), Bank.tap]

theorem rowPhase_lt (hC : C.ScalarsOk) (ph0 n : Nat) : rowPhase C ph0 n < C.P := Nat.mod_lt _ hC.P_pos

/-- Settles O44, by `columnSum_flat`; the flat-field constraint speaks of the phase of the column and of any other. -/
theorem interiorColumnOfAFlatRow : Obligations.InteriorColumnOfAFlatRow := by
  intro C hC q px ph0 len m cls _ hflat hlo hhi
  have hsum := columnSum_flat (q := q) (ph0 := ph0) hC hflat hlo hhi
  have hout : outputPixel C (.image q) px ph0 len m = C.final (C.flatSum q cls (rowPhase C ph0 m)) := by
    rw [outputPixel, hsum]
  refine ⟨hsum, hout, fun hfield hv a ha => ?_⟩
  have hcls : cls < C.NCLASS := hflat m (by omega) ▸ hC.CLASSIFY_lt _
  rw [hout]
  exact hfield q cls _ a hv hcls (rowPhase_lt hC ph0 m) ha

/-! ### A single pixel -/

/-- With every pixel after the first one black, only the first one lands anywhere (R183). -/
theorem landed_single (hC : C.ScalarsOk) (hlen : 0 < len)
    (hblack : ∀ n p t, 0 < n → n < len → p < C.P → t < C.T →
      b.tap C (C.CLASSIFY (C.ADJ (px n))) p t = Yiq.zero) :
    landed C b px ph0 len x = landing C b px ph0 x 0 := by
  have hrest : landed C b px ph0 len x = landed C b px ph0 1 x := by
    refine yiq_sum_drop_right hlen fun n hn hlt => ?_
    unfold landing
    split
    · next h =>
      obtain ⟨-, htap⟩ := h
      exact hblack n _ _ hn hlt (rowPhase_lt hC ph0 n) htap
    · rfl
  rw [hrest, landed_succ, landed_zero, yiq_zero_add]

/-- Settles O45: only the first pixel lands (`landed_single`), and its last tap lands on column RIGHT. -/
theorem singlePixelAtTheLeftBoundary : Obligations.SinglePixelAtTheLeftBoundary := by
  intro C hC b px ph0 len m hph hm hblack
  have hleft := hC.LEFT_lt
  have hT := hC.T_pos
  have hreach : m ≤ C.RIGHT ↔ m + C.LEFT < C.T := by unfold Config.RIGHT; omega
  have hfirst : rowPhase C ph0 0 = ph0 := by rw [rowPhase, Nat.zero_mul, Nat.add_zero, Nat.mod_eq_of_lt hph]
  rw [outputPixel, columnSum_eq_landed, landed_single hC (Nat.zero_lt_of_lt hm) hblack]
  split
  · next h =>
    rw [← Nat.zero_add (m + C.LEFT), landing_add (hreach.1 h), hfirst, Nat.zero_add]
  · next h =>
    have hpassed : 0 + C.T ≤ m + C.LEFT := by omega
    rw [landing_of_passed hpassed]

end Sys2Proof.Proofs

/-!
A running BLIT counted in its engine's turns (spec 42_blit R168, R173 to R179): where it stands after `k` of them, what
the next one does, and how the turns of other agents come between.
-/

namespace Sys2Proof.Proofs

open Sys2Proof Sys2Proof.Machine Sys2Proof.Laws

variable {C : Config} {s t u v : State} {e k : Nat} {E : Engine} {a : BankIx} {w : List Yiq} {l pre : List Agent}

/-! ### Pixel and flush steps as one -/

/-- The engine whose slot 0 the next step retires: a pixel step has added its pixel, a flush step adds none (R169,
R175). -/
def loaded (C : Config) (s : State) (E : Engine) : Engine :=
  if E.col < E.rowLen then { E.consumed C s with col := E.col + 1 } else E

theorem loaded_of_pixel (h : E.col < E.rowLen) : loaded C s E = { E.consumed C s with col := E.col + 1 } := if_pos h

theorem loaded_of_flush (h : E.rowLen ≤ E.col) : loaded C s E = E := if_neg (Nat.not_lt.2 h)

@[simp] theorem loaded_wb : (loaded C s E).wb = E.wb := by unfold loaded; split <;> rfl
@[simp] theorem loaded_rowLen : (loaded C s E).rowLen = E.rowLen := by unfold loaded; split <;> rfl
@[simp] theorem loaded_retireAddr : (loaded C s E).retireAddr = E.retireAddr := by unfold loaded; split <;> rfl

/-- Until its row is read and flushed, each step of a BLIT retires one slot. -/
theorem blitStep_retires (hlive : E.col < E.rowLen ∨ E.wb < E.rowLen)
    (hread : E.col < E.rowLen → admitted16 C E.readAddr = true) (hwrite : retireAdmitted C E = true) :
    blitStep C e E s =
      State.setEngine { s with mem := retireMem C (loaded C s E) s.mem } e (loaded C s E).retired := by
  by_cases hc : E.col < E.rowLen
  · rw [blitStep_pixel hc (hread hc) hwrite, loaded_of_pixel hc]
    rfl
  · have hc' : E.rowLen ≤ E.col := Nat.not_lt.1 hc
    rw [blitStep_flush hc' (hlive.resolve_left hc) hwrite, loaded_of_flush hc', flushStep]

/-! ### Where a BLIT stands -/

/-- The engine `k` turns after it accepted a BLIT with the operands of `E`, its window being `w` (R168). -/
def blitAt (C : Config) (a : BankIx) (E : Engine) (k : Nat) (w : List Yiq) : Engine :=
  { E.startBlit C a with
    lph := rowPhase C E.phase (min k E.rowLen)
    col := min k E.rowLen
    wb := (k : Int) - C.LEFT
    w := w }

@[simp] theorem blitAt_col : (blitAt C a E k w).col = min k E.rowLen := rfl
@[simp] theorem blitAt_wb : (blitAt C a E k w).wb = (k : Int) - C.LEFT := rfl
@[simp] theorem blitAt_w : (blitAt C a E k w).w = w := rfl
@[simp] theorem blitAt_lph : (blitAt C a E k w).lph = rowPhase C E.phase (min k E.rowLen) := rfl
@[simp] theorem blitAt_rowLen : (blitAt C a E k w).rowLen = E.rowLen := rfl
@[simp] theorem blitAt_lbank : (blitAt C a E k w).lbank = a := rfl
@[simp] theorem blitAt_dst : (blitAt C a E k w).dst = E.dst := rfl

theorem blitAt_runsBlit : (blitAt C a E k w).RunsBlit := ⟨rfl, rfl⟩

/-- What the acceptance loads is the start (R161). -/
theorem startBlit_eq_blitAt (hphase : E.phase < C.P) :
    E.startBlit C a = blitAt C a E 0 (List.replicate C.T Yiq.zero) := by
  have hlph : rowPhase C E.phase (min 0 E.rowLen) = E.phase := by
    rw [Nat.zero_min, rowPhase, Nat.zero_mul, Nat.add_zero, Nat.mod_eq_of_lt hphase]
  have hwb : ((0 : Nat) : Int) - C.LEFT = -C.LEFT := Int.zero_sub _
  rw [blitAt, hlph, hwb, Nat.zero_min]
  rfl

/-- Retiring a slot is one turn more: while pixels are left it counts one and advances the phase. -/
theorem retired_loaded_blitAt :
    (loaded C s (blitAt C a E k w)).retired =
      blitAt C a E (k + 1) (shiftWindow (loaded C s (blitAt C a E k w)).w) := by
  have hwb : (k : Int) - C.LEFT + 1 = ((k + 1 : Nat) : Int) - C.LEFT := by omega
  rcases Nat.lt_or_ge k E.rowLen with hk | hk
  · have hmin : min k E.rowLen = k := Nat.min_eq_left hk.le
    have hmin' : min (k + 1) E.rowLen = k + 1 := Nat.min_eq_left hk
    have hlph : (rowPhase C E.phase k + C.STEP) % C.P = rowPhase C E.phase (k + 1) := rowPhase_succ E.phase k
    rw [loaded_of_pixel (by simpa [hmin] using hk), blitAt, blitAt, hmin, hmin', ← hwb, ← hlph]
    rfl
  · have hmin : min k E.rowLen = E.rowLen := Nat.min_eq_right hk
    have hmin' : min (k + 1) E.rowLen = E.rowLen := Nat.min_eq_right (Nat.le_succ_of_le hk)
    rw [loaded_of_flush (by simp [hk]), blitAt, blitAt, hmin, hmin', ← hwb]
    rfl

/-! ### The engine's next turn -/

/-- A 2-byte access to a pixel of a backed row is admitted (R68). -/
theorem admitted16_of_row {base : Word} {len n : Nat} (h : ∀ x, inRow base len x → C.ADMITS x = true) (hn : n < len) :
    admitted16 C (pixelAddr base n) = true := by
  rw [admitted16, h _ ⟨n, hn, .inl rfl⟩, h _ ⟨n, hn, .inr rfl⟩]
  rfl

/-- Before its last turn, a BLIT with backed rows retires a slot. -/
theorem engineStep_blitAt (hrows : E.RowsAdmitted C) (hk : k < E.rowLen + C.LEFT)
    (hE : s.engines[e]? = some (blitAt C a E k w)) :
    engineStep C e s =
      State.setEngine { s with mem := retireMem C (loaded C s (blitAt C a E k w)) s.mem } e
        (blitAt C a E (k + 1) (shiftWindow (loaded C s (blitAt C a E k w)).w)) := by
  have hlive : min k E.rowLen < E.rowLen ∨ (k : Int) - C.LEFT < E.rowLen := by omega
  have hwrite : retireAdmitted C (blitAt C a E k w) = true := by
    refine retireAdmitted_of_backed fun ⟨hlo, hhi⟩ => admitted16_of_row (fun x hx => hrows x (.inr hx)) ?_
    simp only [blitAt_wb, blitAt_rowLen] at hlo hhi ⊢
    omega
  have hread (hc : min k E.rowLen < E.rowLen) : admitted16 C (blitAt C a E k w).readAddr = true :=
    admitted16_of_row (fun x hx => hrows x (.inl hx)) hc
  rw [engineStep_of_runsBlit hE blitAt_runsBlit, blitStep_retires (E := blitAt C a E k w) hlive hread hwrite,
    retired_loaded_blitAt]

/-- The engine once its BLIT has ended (R176). -/
def blitEnded (C : Config) (a : BankIx) (E : Engine) (w : List Yiq) : Engine :=
  { blitAt C a E (E.rowLen + C.LEFT) w with phase := rowPhase C E.phase E.rowLen, busy := false }

/-- The last turn, number N + LEFT + 1, completes the BLIT. -/
theorem engineStep_blitAt_last (hE : s.engines[e]? = some (blitAt C a E (E.rowLen + C.LEFT) w)) :
    engineStep C e s = s.setEngine e (blitEnded C a E w) := by
  have hlph : (blitAt C a E (E.rowLen + C.LEFT) w).lph = rowPhase C E.phase E.rowLen := by
    rw [blitAt_lph, Nat.min_eq_right (Nat.le_add_right _ _)]
  have hwb : (E.rowLen : Int) ≤ ((E.rowLen + C.LEFT : Nat) : Int) - C.LEFT := by omega
  rw [engineStep_of_runsBlit hE blitAt_runsBlit, blitStep_complete (by simp) hwb, completeBlit, blitEnded, ← hlph]

/-! ### Interleavings -/

/-- A run of one step more, from the last step. -/
theorem runIn_succ_last (h : runIn C (k + 1) s = .next t) : ∃ u, runIn C k s = .next u ∧ stepIn C u = .next t := by
  induction k generalizing s with
  | zero =>
    obtain ⟨v, hv, ht⟩ := runIn_succ_cases C 0 s t h
    cases ht
    exact ⟨s, rfl, hv⟩
  | succ k ih =>
    obtain ⟨v, hv, ht⟩ := runIn_succ_cases C (k + 1) s t h
    obtain ⟨u, hu, hut⟩ := ih ht
    exact ⟨u, (runIn_next C k s v hv).trans hu, hut⟩

/-- Agents that have had their turn stand at the end of the schedule. -/
theorem runIn_sched (hs : s.sched = pre ++ l) (h : runIn C pre.length s = .next t) : t.sched = l ++ pre := by
  induction pre generalizing s l with
  | nil => cases h; simpa using hs
  | cons g pre ih =>
    obtain ⟨u, hu, ht⟩ := runIn_succ_cases C pre.length s t h
    have hsched : u.sched = pre ++ (l ++ [g]) := by
      rw [stepIn_sched C s u g (pre ++ l) hs hu, List.append_assoc]
    simpa using ih hsched ht

/-- Induction over an interleaving without a reset, counting the turns of engine `e`, at most `last`: a property that
each of its turns takes from `k` to `k + 1` and every other step keeps, where `R` is what the other agents promise of
their steps. -/
theorem interleaving_induction {Inv : Nat → State → Prop} {R : State → State → Prop} {last : Nat}
    (own : ∀ k u v l, k < last → Inv k u → u.sched = .engine e :: l → stepIn C u = .next v → Inv (k + 1) v)
    (other : ∀ k u v, Inv k u → (∀ l, u.sched ≠ .engine e :: l) → (∀ l, u.sched ≠ .reset :: l) →
      stepIn C u = .next v → R u v → Inv k v)
    (hinv : Inv k s) (hs : s.sched = pre ++ l) (hreset : Agent.reset ∉ pre)
    (hlast : k + pre.count (.engine e) ≤ last)
    (promise : ∀ j u v, j < pre.length → runIn C j s = .next u → stepIn C u = .next v →
      (∀ l, u.sched ≠ .engine e :: l) → R u v)
    (h : runIn C pre.length s = .next t) : Inv (k + pre.count (.engine e)) t := by
  induction pre generalizing k s l with
  | nil => cases h; exact hinv
  | cons g pre ih =>
    obtain ⟨v, hv, ht⟩ := runIn_succ_cases C pre.length s t h
    have hsched : v.sched = pre ++ (l ++ [g]) := by
      rw [stepIn_sched C s v g (pre ++ l) hs hv, List.append_assoc]
    have hreset' : Agent.reset ∉ pre := fun hmem => hreset (List.mem_cons_of_mem g hmem)
    have promise' : ∀ j u v', j < pre.length → runIn C j v = .next u → stepIn C u = .next v' →
        (∀ l, u.sched ≠ .engine e :: l) → R u v' := fun j u v' hj hu =>
      promise (j + 1) u v' (Nat.succ_lt_succ hj) ((runIn_next C j s v hv).trans hu)
    by_cases hg : g = .engine e
    · subst hg
      rw [List.count_cons_self] at hlast ⊢
      rw [Nat.add_comm (pre.count _), ← Nat.add_assoc] at hlast ⊢
      exact ih (own k s v _ (by omega) hinv hs hv) hsched hreset' hlast promise' ht
    · have hown : ∀ l, s.sched ≠ .engine e :: l := fun l' hl => hg (List.cons.inj (hs.symm.trans hl)).1
      have hnoreset : ∀ l, s.sched ≠ .reset :: l := fun l' hl =>
        hreset ((List.cons.inj (hs.symm.trans hl)).1 ▸ List.mem_cons_self)
      rw [List.count_cons_of_ne hg] at hlast ⊢
      exact ih (other k s v hinv hown hnoreset hv (promise 0 s v (Nat.succ_pos _) rfl hv hown)) hsched hreset' hlast
        promise' ht

/-- The turn that `pre` leads up to. -/
theorem interleaving_last_turn {rest : List Agent} (hs : s.sched = pre ++ .engine e :: rest)
    (h : runIn C (pre.length + 1) s = .next t) :
    ∃ u, runIn C pre.length s = .next u ∧ u.sched = .engine e :: (rest ++ pre) ∧ stepIn C u = .next t := by
  obtain ⟨u, hu, ht⟩ := runIn_succ_last h
  exact ⟨u, hu, runIn_sched hs hu, ht⟩

/-! ### A BLIT in an interleaving -/

/-- The engine has taken `k` turns of its BLIT, whatever its window holds. -/
def Blitting (C : Config) (a : BankIx) (e : Nat) (E : Engine) (k : Nat) (s : State) : Prop :=
  ∃ w, s.engines[e]? = some (blitAt C a E k w)

theorem stepIn_own_turn (hE : s.engines[e]? = some E) (hs : s.sched = .engine e :: l) (h : stepIn C s = .next t) :
    t = engineStep C e { s with sched := l ++ [.engine e] } :=
  (Host.Outcome.next.inj ((stepIn_engineTurn ⟨hs, hE⟩).symm.trans h)).symm

theorem blitting_own_turn (hrows : E.RowsAdmitted C) (hk : k < E.rowLen + C.LEFT) (hu : Blitting C a e E k u)
    (hs : u.sched = .engine e :: l) (h : stepIn C u = .next v) : Blitting C a e E (k + 1) v := by
  obtain ⟨w, hE⟩ := hu
  rw [stepIn_own_turn hE hs h,
    engineStep_blitAt (s := { u with sched := l ++ [.engine e] }) hrows hk hE]
  exact ⟨_, engine_at_set hE⟩

theorem blitting_other_turn (hu : Blitting C a e E k u) (hown : ∀ l, u.sched ≠ .engine e :: l)
    (hreset : ∀ l, u.sched ≠ .reset :: l) (h : stepIn C u = .next v) : Blitting C a e E k v := by
  obtain ⟨w, hE⟩ := hu
  exact ⟨w, stepIn_busy hE rfl hreset hown h⟩

/-- After any interleaved turns, of which at most N + LEFT are the engine's, the BLIT has taken as many (R168). -/
theorem blitting_of_run (hrows : E.RowsAdmitted C) (hstart : Blitting C a e E 0 s) (hs : s.sched = pre ++ l)
    (hreset : Agent.reset ∉ pre) (hcount : pre.count (.engine e) ≤ E.rowLen + C.LEFT)
    (h : runIn C pre.length s = .next t) : Blitting C a e E (pre.count (.engine e)) t := by
  have hrun := interleaving_induction (Inv := Blitting C a e E) (R := fun _ _ => True) (last := E.rowLen + C.LEFT)
    (fun k u v l hk hu hs h => blitting_own_turn hrows hk hu hs h)
    (fun k u v hu hown hreset h _ => blitting_other_turn hu hown hreset h)
    hstart hs hreset (by omega) (fun _ _ _ _ _ _ _ => trivial) h
  rwa [Nat.zero_add] at hrun

/-- A row whose phase advances by a multiple of the cycle returns the phase passed in (R179). -/
theorem rowPhase_of_dvd {ph0 n : Nat} (hphase : ph0 < C.P) (h : C.P ∣ n * C.STEP) : rowPhase C ph0 n = ph0 := by
  rw [rowPhase, Nat.add_mod, Nat.mod_eq_zero_of_dvd h, Nat.add_zero, Nat.mod_mod, Nat.mod_eq_of_lt hphase]

/-- Settles O41: before the last turn the engine is at some `blitAt` (`blitting_of_run`), and that turn completes it. -/
theorem blitEndsInEveryInterleaving : Obligations.BlitEndsInEveryInterleaving := by
  intro C _ s e E pre rest t hE hphase hrows hs hreset hcount ht
  have hstart : Blitting C s.active e E 0 s := ⟨_, startBlit_eq_blitAt (C := C) hphase ▸ hE⟩
  constructor
  · intro j u hj hu
    have hlen : (pre.take j).length = j := List.length_take_of_le hj
    have hsplit : s.sched = pre.take j ++ (pre.drop j ++ .engine e :: rest) := by
      rw [hs, ← List.append_assoc, List.take_append_drop]
    have hle : (pre.take j).count (.engine e) ≤ E.rowLen + C.LEFT :=
      hcount ▸ (List.take_sublist j pre).count_le _
    obtain ⟨w, hF⟩ := blitting_of_run hrows hstart hsplit (fun h => hreset (List.mem_of_mem_take h)) hle
      (hlen.symm ▸ hu)
    exact ⟨_, hF, rfl, rfl⟩
  · obtain ⟨u, hu, husched, hut⟩ := interleaving_last_turn hs ht
    obtain ⟨w, hF⟩ := blitting_of_run hrows hstart hs hreset hcount.le hu
    rw [hcount] at hF
    rw [stepIn_own_turn hF husched hut,
      engineStep_blitAt_last (s := { u with sched := rest ++ pre ++ [.engine e] }) hF]
    exact ⟨_, engine_at_set hF, rfl, rfl,
      fun hN => rowPhase_of_dvd hphase (hN ▸ Nat.dvd_mul_right C.P C.STEP), fun h => rowPhase_of_dvd hphase h⟩

end Sys2Proof.Proofs

/-!
BLIT computes its closed form (spec 42_blit R165 to R180): what the window and the output row hold after `k` of the
engine's turns, with no other agent between them and in every interleaving that keeps the host's duties.
-/

namespace Sys2Proof.Proofs

open Sys2Proof Sys2Proof.Machine Sys2Proof.Laws

variable {C : Config} {s t u v : State} {e k n x : Nat} {E : Engine} {a : BankIx} {b : Bank} {px : Nat → Pixel}
  {ph0 : Nat} {m m' : Memory} {l pre : List Agent}

/-! ### The window -/

/-- The window whose slot `j` stands for position `x + j`, once pixels 0 to `n - 1` have landed (R47, R172). -/
def slotsFrom (C : Config) (b : Bank) (px : Nat → Pixel) (ph0 n x : Nat) : List Yiq :=
  (List.range C.T).map fun j => landed C b px ph0 n (x + j)

theorem slotsFrom_zero : slotsFrom C b px ph0 0 x = List.replicate C.T Yiq.zero := by
  simp [slotsFrom, landed_zero]

theorem slotsFrom_headD (hC : C.ScalarsOk) : (slotsFrom C b px ph0 n x).headD Yiq.zero = landed C b px ph0 n x := by
  obtain ⟨T, hT⟩ := Nat.exists_eq_add_of_le' hC.T_pos
  rw [slotsFrom, hT, List.range_succ_eq_map]
  rfl

/-- Adding the kernel of pixel `n` to the window over position `n` lands each of its taps (R172). -/
theorem slotsFrom_add_kernel (C : Config) (b : Bank) (px : Nat → Pixel) (ph0 n : Nat) :
    List.zipWith Yiq.add (slotsFrom C b px ph0 n n)
      ((List.range C.T).map (b.tap C (C.CLASSIFY (C.ADJ (px n))) (rowPhase C ph0 n))) =
      slotsFrom C b px ph0 (n + 1) n := by
  rw [slotsFrom, slotsFrom, List.zipWith_map, List.zipWith_self]
  refine List.map_congr_left fun j hj => ?_
  rw [landed_succ, landing_add (List.mem_range.1 hj)]

theorem shiftWindow_map_range (f : Nat → Yiq) (n : Nat) (h : f n = Yiq.zero) :
    shiftWindow ((List.range n).map f) = (List.range n).map fun j => f (j + 1) := by
  cases n with
  | zero => rfl
  | succ n =>
    rw [List.range_succ_eq_map, List.map_cons, shiftWindow, List.map_map, ← List.range_succ_eq_map, List.range_succ,
      List.map_append, List.map_singleton, h]
    rfl

/-- Retiring slot 0 moves the window on by one position, whose top no tap has reached (R174). -/
theorem shiftWindow_slotsFrom (h : n ≤ x + 1) :
    shiftWindow (slotsFrom C b px ph0 n x) = slotsFrom C b px ph0 n (x + 1) := by
  have htop : landed C b px ph0 n (x + C.T) = Yiq.zero := landed_of_passed (by omega)
  rw [slotsFrom, shiftWindow_map_range (fun j => landed C b px ph0 n (x + j)) _ htop, slotsFrom]
  refine List.map_congr_left fun j _ => ?_
  rw [Nat.add_assoc, Nat.add_comm 1 j]

theorem lookupKernel_of_bank (hb : s.bank a = b) (c p : Nat) :
    lookupKernel C s a c p = (List.range C.T).map (b.tap C c p) := by
  rw [lookupKernel]
  refine List.map_congr_left fun j _ => ?_
  rw [State.tap, hb]

/-! ### The engine and the row -/

/-- The engine `k` turns after it accepted, in state `s`, a BLIT with the operands of `E`: the window holds what the
pixels of the row at acceptance have landed. -/
def rowEngine (C : Config) (s : State) (E : Engine) (k : Nat) : Engine :=
  blitAt C s.active E k (slotsFrom C (s.bank s.active) (inputPixel s.mem E) E.phase (min k E.rowLen) k)

/-- The closed form at column `n`, of the row and the table at acceptance (R165). -/
def rowPixel (C : Config) (s : State) (E : Engine) (n : Nat) : Pixel :=
  outputPixel C (s.bank s.active) (inputPixel s.mem E) E.phase E.rowLen n

/-- What holds after `k` of the engine's turns: the columns below WB are written, and the BLIT still has the row and the
table that it accepted. -/
structure RowWritten (C : Config) (s : State) (e : Nat) (E : Engine) (k : Nat) (u : State) : Prop where
  engine : u.engines[e]? = some (rowEngine C s E k)
  bank : u.bank s.active = s.bank s.active
  wf : Memory.wf u.mem = true
  input : ∀ n, n < E.rowLen → inputPixel u.mem E n = inputPixel s.mem E n
  output : ∀ n, n < E.rowLen → n + C.LEFT < k → Memory.read16 u.mem (pixelAddr E.dst n) = rowPixel C s E n

/-- At acceptance (R161). -/
theorem rowWritten_start (hE : u.engines[e]? = some (E.startBlit C s.active)) (hmem : u.mem = s.mem)
    (hbank : u.bank s.active = s.bank s.active) (hphase : E.phase < C.P) (hwf : Memory.wf s.mem = true) :
    RowWritten C s e E 0 u where
  engine := by rw [hE, startBlit_eq_blitAt hphase, rowEngine, Nat.zero_min, slotsFrom_zero]
  bank := hbank
  wf := hmem ▸ hwf
  input _ _ := by rw [hmem]
  output _ _ h := absurd h (Nat.not_lt_zero _)

/-- The window whose slot 0 the next turn retires: the pixel that the turn reads has landed. -/
theorem loaded_rowEngine (hu : RowWritten C s e E k u) :
    (loaded C u (rowEngine C s E k)).w =
      slotsFrom C (s.bank s.active) (inputPixel s.mem E) E.phase (min (k + 1) E.rowLen) k := by
  rcases Nat.lt_or_ge k E.rowLen with hk | hk
  · have hmin : min k E.rowLen = k := Nat.min_eq_left hk.le
    have hmin' : min (k + 1) E.rowLen = k + 1 := Nat.min_eq_left hk
    have hpixel : Memory.read16 u.mem (rowEngine C s E k).readAddr = inputPixel s.mem E k := by
      rw [← hu.input k hk, Engine.readAddr, rowEngine, blitAt_col, hmin]
      rfl
    have hcol : (rowEngine C s E k).col < (rowEngine C s E k).rowLen := by simpa [rowEngine] using hk
    rw [loaded_of_pixel hcol]
    show ((rowEngine C s E k).consumed C u).w = _
    rw [Engine.consumed, accumulate_w, hpixel, rowEngine, blitAt_w, blitAt_lbank, blitAt_lph,
      lookupKernel_of_bank hu.bank, hmin, hmin', slotsFrom_add_kernel]
  · have hmin : min k E.rowLen = E.rowLen := Nat.min_eq_right hk
    have hmin' : min (k + 1) E.rowLen = E.rowLen := Nat.min_eq_right (Nat.le_succ_of_le hk)
    rw [loaded_of_flush (by simp [rowEngine, hk]), rowEngine, blitAt_w, hmin, hmin']

/-- What the next turn retires at column `n` is the closed form: the pixels still to come land to its right. -/
theorem final_slot0_loaded (hC : C.ScalarsOk) (hu : RowWritten C s e E (n + C.LEFT) u) :
    C.final (loaded C u (rowEngine C s E (n + C.LEFT))).slot0 = rowPixel C s E n := by
  have hrest : landed C (s.bank s.active) (inputPixel s.mem E) E.phase (min (n + C.LEFT + 1) E.rowLen) (n + C.LEFT) =
      landed C (s.bank s.active) (inputPixel s.mem E) E.phase E.rowLen (n + C.LEFT) := by
    rcases Nat.lt_or_ge (n + C.LEFT) E.rowLen with h | h
    · rw [Nat.min_eq_left h]
      exact (landed_of_later h (Nat.lt_succ_self _)).symm
    · rw [Nat.min_eq_right (Nat.le_succ_of_le h)]
  rw [Engine.slot0, loaded_rowEngine hu, slotsFrom_headD hC, hrest, rowPixel, outputPixel, columnSum_eq_landed]

/-! ### Memory after a turn -/

/-- Memory after turn `k`: column `k - LEFT` is written, and the first LEFT turns write none (R174). -/
def columnStored (C : Config) (s : State) (E : Engine) (k : Nat) (m : Memory) : Memory :=
  if C.LEFT ≤ k then Memory.write16 m (pixelAddr E.dst (k - C.LEFT)) (rowPixel C s E (k - C.LEFT)) else m

theorem retireMem_loaded (hC : C.ScalarsOk) (hu : RowWritten C s e E k u) (hk : k < E.rowLen + C.LEFT) :
    retireMem C (loaded C u (rowEngine C s E k)) m = columnStored C s E k m := by
  have hwb : (loaded C u (rowEngine C s E k)).wb = (k : Int) - C.LEFT := by rw [loaded_wb, rowEngine, blitAt_wb]
  have hlen : (loaded C u (rowEngine C s E k)).rowLen = E.rowLen := by rw [loaded_rowLen, rowEngine, blitAt_rowLen]
  rw [columnStored]
  split
  · next hleft =>
    obtain ⟨n, rfl⟩ := Nat.exists_eq_add_of_le' hleft
    have hcolumn : (rowEngine C s E (n + C.LEFT)).wb.toNat = n := by rw [rowEngine, blitAt_wb]; omega
    have haddr : (loaded C u (rowEngine C s E (n + C.LEFT))).retireAddr = pixelAddr E.dst n := by
      rw [loaded_retireAddr, Engine.retireAddr, hcolumn, rowEngine, blitAt_dst]
    rw [retireMem_of_in_row (by omega), haddr, final_slot0_loaded hC hu, Nat.add_sub_cancel]
  · next hleft => exact retireMem_of_dropped (by omega)

theorem wf_columnStored (h : Memory.wf m = true) : Memory.wf (columnStored C s E k m) = true := by
  unfold columnStored
  split
  · exact wf_write16 m _ _ h
  · exact h

/-- The column of the turn holds the closed form. -/
theorem read16_columnStored (h : Memory.wf m = true) (hk : n + C.LEFT = k) :
    Memory.read16 (columnStored C s E k m) (pixelAddr E.dst n) = rowPixel C s E n := by
  subst hk
  rw [columnStored, if_pos (Nat.le_add_left _ _), Nat.add_sub_cancel, read16_write16_same m _ _ h]

/-- Every byte but the two of the turn's column is as it was (R69). -/
theorem read_columnStored_ne {y : Word} (h : ∀ n, n + C.LEFT = k → ¬ inPixel E.dst n y) :
    Memory.read (columnStored C s E k m) y.toNat = Memory.read m y.toNat := by
  unfold columnStored
  split
  · next hk =>
    obtain ⟨hlow, hhigh⟩ := not_or.1 (h (k - C.LEFT) (Nat.sub_add_cancel hk))
    exact read_write16_ne m _ _ y hlow hhigh
  · rfl

/-- A pixel is its two bytes. -/
theorem read16_congr {base : Word} (h : ∀ y, inPixel base n y → Memory.read m' y.toNat = Memory.read m y.toNat) :
    Memory.read16 m' (pixelAddr base n) = Memory.read16 m (pixelAddr base n) := by
  rw [Memory.read16, Memory.read16, h _ (.inl rfl), h _ (.inr rfl)]

/-! ### The engine's next turn -/

theorem engineStep_rowEngine (hC : C.ScalarsOk) (hrows : E.RowsAdmitted C) (hk : k < E.rowLen + C.LEFT)
    (hu : RowWritten C s e E k u) :
    engineStep C e u =
      State.setEngine { u with mem := columnStored C s E k u.mem } e (rowEngine C s E (k + 1)) := by
  have hnext : shiftWindow (loaded C u (rowEngine C s E k)).w =
      slotsFrom C (s.bank s.active) (inputPixel s.mem E) E.phase (min (k + 1) E.rowLen) (k + 1) := by
    rw [loaded_rowEngine hu, shiftWindow_slotsFrom (Nat.min_le_left _ _)]
  have hstep := engineStep_blitAt (C := C) hrows hk hu.engine
  rw [← rowEngine, retireMem_loaded hC hu hk, hnext] at hstep
  exact hstep

/-- A turn of the engine before its last one writes the next column and leaves the input row, which it does not overlap
(R76). -/
theorem rowWritten_engineStep (hC : C.ScalarsOk) (hdisjoint : E.RowsDisjoint) (hrows : E.RowsAdmitted C)
    (hk : k < E.rowLen + C.LEFT) (hu : RowWritten C s e E k u) : RowWritten C s e E (k + 1) (engineStep C e u) := by
  rw [engineStep_rowEngine hC hrows hk hu]
  have hN : E.rowLen < 65536 := E.srcLen.isLt
  refine ⟨engine_at_set hu.engine, hu.bank, wf_columnStored hu.wf, fun n hn => ?_, fun n hn hlt => ?_⟩
  · refine (read16_congr fun y hy => read_columnStored_ne fun n' hn' hy' => ?_).trans (hu.input n hn)
    exact hdisjoint y ⟨⟨n, hn, hy⟩, ⟨n', by omega, hy'⟩⟩
  · rcases Nat.lt_succ_iff_lt_or_eq.1 hlt with hlt | heq
    · refine (read16_congr fun y hy => read_columnStored_ne fun n' hn' hy' => ?_).trans (hu.output n hn hlt)
      have hsame : n = n' := inPixel_inj E.dst n n' (by omega) (by omega) y hy hy'
      omega
    · exact read16_columnStored hu.wf heq

/-! ### Alone -/

/-- What holds after `k` of the engine's turns with no other agent between: besides, the rest of the machine is as it
was, and so is every byte outside the columns below WB. -/
structure AloneAt (C : Config) (s : State) (e : Nat) (E : Engine) (k : Nat) (u : State) : Prop
    extends RowWritten C s e E k u where
  whole : u = { s with mem := u.mem, engines := s.engines.set e (rowEngine C s E k) }
  others : ∀ y : Word, (∀ n, n + C.LEFT < k → ¬ inPixel E.dst n y) →
    Memory.read u.mem y.toNat = Memory.read s.mem y.toNat

/-- The state that the acceptance of a BLIT answers. -/
theorem aloneAt_start (hE : IdleAtPort s E) (hphase : E.phase < C.P) (hwf : Memory.wf s.mem = true) :
    AloneAt C s s.port E 0 (s.setEngine s.port (E.startBlit C s.active)) := by
  obtain ⟨hE, -⟩ := hE
  have hstart : RowWritten C s s.port E 0 (s.setEngine s.port (E.startBlit C s.active)) :=
    rowWritten_start (engine_at_set hE) rfl rfl hphase hwf
  have hengine : E.startBlit C s.active = rowEngine C s E 0 :=
    Option.some.inj ((engine_at_set hE).symm.trans hstart.engine)
  refine ⟨hstart, ?_, fun _ _ => rfl⟩
  rw [← hengine]
  rfl

theorem aloneAt_engineStep (hC : C.ScalarsOk) (hdisjoint : E.RowsDisjoint) (hrows : E.RowsAdmitted C)
    (hk : k < E.rowLen + C.LEFT) (hu : AloneAt C s e E k u) : AloneAt C s e E (k + 1) (engineStep C e u) := by
  refine ⟨rowWritten_engineStep hC hdisjoint hrows hk hu.toRowWritten, ?_, ?_⟩
  · rw [engineStep_rowEngine hC hrows hk hu.toRowWritten]
    conv_lhs => rw [hu.whole]
    simp [State.setEngine]
  · intro y hy
    rw [engineStep_rowEngine hC hrows hk hu.toRowWritten]
    refine (read_columnStored_ne fun n hn => hy n (by omega)).trans (hu.others y fun n hn => hy n (by omega))

theorem engineTurns_succ (C : Config) (e k : Nat) (s : State) :
    engineTurns C e (k + 1) s = engineStep C e (engineTurns C e k s) :=
  Function.iterate_succ_apply' (engineStep C e) k s

theorem aloneAt_engineTurns (hC : C.ScalarsOk) (hdisjoint : E.RowsDisjoint) (hrows : E.RowsAdmitted C)
    (hu : AloneAt C s e E 0 u) (hk : k ≤ E.rowLen + C.LEFT) : AloneAt C s e E k (engineTurns C e k u) := by
  induction k with
  | zero => exact hu
  | succ k ih =>
    rw [engineTurns_succ]
    exact aloneAt_engineStep hC hdisjoint hrows hk (ih (Nat.le_of_succ_le hk))

/-- Settles O40, by induction on the turns (`aloneAt_engineTurns`). -/
theorem runningRowIsWrittenUpToTheWindowBase : Obligations.RunningRowIsWrittenUpToTheWindowBase := by
  intro C hC s E hE ht hl hphase hwf hdisjoint hrows k hk
  have hk' : k ≤ E.rowLen + C.LEFT := Nat.le_of_lt_succ hk
  have hrun := aloneAt_engineTurns hC hdisjoint hrows (aloneAt_start hE hphase hwf) hk'
  have below (n : Nat) : (n : Int) < (rowEngine C s E k).wb ↔ n + C.LEFT < k := by
    rw [rowEngine, blitAt_wb]
    omega
  refine ⟨_, _, _, execIn_blit_of_accepted C hE ht hl, rfl, hrun.engine, rfl, rfl, rfl, fun n hn => ?_, fun y hy => ?_⟩
  · have hn' := (below n).1 hn
    exact hrun.output n (by omega) hn'
  · exact hrun.others y fun n hn => hy n ((below n).2 hn)

/-- With one engine alone on the schedule, the machine's steps are that engine's turns. -/
theorem runIn_alone (hs : u.sched = [.engine e]) (k : Nat) : runIn C k u = .next (engineTurns C e k u) := by
  induction k generalizing u with
  | zero => rfl
  | succ k ih =>
    have same : { u with sched := [] ++ [.engine e] } = u := by rw [List.nil_append, ← hs]
    have hstep : stepIn C u = .next (engineStep C e u) := by
      conv_rhs => rw [← same]
      simp [stepIn, scheduledStep, hs, takeTurn]
    have hsched : (engineStep C e u).sched = [.engine e] := stepIn_sched C u _ _ [] hs hstep
    exact (runIn_next C k u _ hstep).trans (ih hsched)

/-- Settles O39: N + LEFT turns write the row (`aloneAt_engineTurns`), and the next one only ends the BLIT. -/
theorem blitComputesTheClosedForm : Obligations.BlitComputesTheClosedForm := by
  intro C hC s E hE ht hl hphase hwf hdisjoint hrows hs
  have haccepts := execIn_blit_of_accepted C hE ht hl
  have hrun := aloneAt_engineTurns hC hdisjoint hrows (aloneAt_start hE hphase hwf) (Nat.le_refl _)
  have hends : _ = State.setEngine _ s.port (blitEnded C s.active E (rowEngine C s E (E.rowLen + C.LEFT)).w) :=
    engineStep_blitAt_last (C := C) hrun.engine
  obtain ⟨-, hidle⟩ := hE
  refine ⟨_, _, blitEnded C s.active E (rowEngine C s E (E.rowLen + C.LEFT)).w, haccepts,
    runIn_alone (u := s.setEngine s.port (E.startBlit C s.active)) hs _, ?_⟩
  rw [blitSteps, engineTurns_succ, hends]
  refine ⟨engine_at_set hrun.engine, fun n hn => hrun.output n hn (by omega), fun y hy => ?_, ?_, ?_⟩
  · exact hrun.others y fun n hn hp => hy ⟨n, by omega, hp⟩
  · rw [blitEnded, blitAt, Engine.startBlit, ← hidle]
    rfl
  · conv_lhs => rw [hrun.whole]
    simp [State.setEngine]

end Sys2Proof.Proofs

/-!
BLIT's closed form in every interleaving that keeps the host's duties, and what it depends on (spec 20_memory R70 to
R76; 42_blit R165, R180).
-/

namespace Sys2Proof.Proofs

open Sys2Proof Sys2Proof.Machine Sys2Proof.Laws

variable {C : Config} {s t u v : State} {e k : Nat} {E : Engine} {l pre : List Agent}

/-! ### The turns of the other agents -/

/-- Every step, of any agent, keeps the canonical form of memory. -/
theorem wf_stepIn (hwf : Memory.wf u.mem = true) (h : stepIn C u = .next v) : Memory.wf v.mem = true := by
  cases stepIn_cases C u v h with
  | nobody _ => exact hwf
  | host n rest t _ hh =>
    cases hh with
    | wait => exact hwf
    | agentOnly H => exact hwf
    | memory H y px _ => exact wf_write16 u.mem y px hwf
    | register H off w t _ hr =>
      obtain ⟨-, -, hmem, -⟩ := regWritten_frame hr
      rw [hmem]
      exact hwf
  | engine e rest t _ he =>
    cases he with
    | idle => exact hwf
    | publish F _ _ _ _ => rw [completeSetup_mem]; exact hwf
    | pixel F _ _ _ _ _ => exact wf_retireMem C _ u.mem hwf
    | flush F _ _ _ _ _ _ => exact wf_retireMem C F u.mem hwf
    | complete F _ _ _ _ _ => exact hwf
  | reset rest _ => exact hwf

/-- The host's duty between two states: no byte of either row differs (R75). -/
def RowsKept (E : Engine) (u v : State) : Prop :=
  ∀ y : Word, inRow E.src E.rowLen y ∨ inRow E.dst E.rowLen y → Memory.read v.mem y.toNat = Memory.read u.mem y.toNat

/-- A step of another agent that keeps the duty leaves a running BLIT where it stands: its engine is busy (R41) and its
bank is latched (R73). -/
theorem rowWritten_other_turn (hu : RowWritten C s e E k u) (hown : ∀ l, u.sched ≠ .engine e :: l)
    (hreset : ∀ l, u.sched ≠ .reset :: l) (h : stepIn C u = .next v) (hkept : RowsKept E u v) :
    RowWritten C s e E k v where
  engine := stepIn_busy hu.engine rfl hreset hown h
  bank := (latchedBankIsNeverWritten C u v e _ hu.engine blitAt_runsBlit hreset h).trans hu.bank
  wf := wf_stepIn hu.wf h
  input n hn := (read16_congr fun y hy => hkept y (.inl ⟨n, hn, hy⟩)).trans (hu.input n hn)
  output n hn hlt := (read16_congr fun y hy => hkept y (.inr ⟨n, hn, hy⟩)).trans (hu.output n hn hlt)

theorem rowWritten_own_turn (hC : C.ScalarsOk) (hdisjoint : E.RowsDisjoint) (hrows : E.RowsAdmitted C)
    (hk : k < E.rowLen + C.LEFT) (hu : RowWritten C s e E k u) (hs : u.sched = .engine e :: l)
    (h : stepIn C u = .next v) : RowWritten C s e E (k + 1) v := by
  rw [stepIn_own_turn hu.engine hs h]
  exact rowWritten_engineStep (u := { u with sched := l ++ [.engine e] }) hC hdisjoint hrows hk
    ⟨hu.engine, hu.bank, hu.wf, hu.input, hu.output⟩

/-! ### A whole run -/

/-- Before the last turn of a BLIT's run every column is written. -/
theorem rowWritten_of_blitRun (hC : C.ScalarsOk) (hrun : BlitRun C s e E pre t)
    (hu : runIn C pre.length s = .next u) : RowWritten C s e E (E.rowLen + C.LEFT) u := by
  obtain ⟨rest, hs⟩ := hrun.turns
  have hall := interleaving_induction (Inv := RowWritten C s e E) (R := RowsKept E) (last := E.rowLen + C.LEFT)
    (fun k u v l hk hu hs h => rowWritten_own_turn hC hrun.disjoint hrun.admitted hk hu hs h)
    (fun k u v hu hown hreset h hkept => rowWritten_other_turn hu hown hreset h hkept)
    (rowWritten_start hrun.accepted rfl rfl hrun.phase_lt hrun.mem) hs hrun.noReset
    (by rw [Nat.zero_add, hrun.count]) hrun.duties hu
  rwa [Nat.zero_add, hrun.count] at hall

/-- What a BLIT's run leaves: the closed form in every column, and the phase that its length determines (R165, R178). -/
theorem blitRun_result (hC : C.ScalarsOk) (hrun : BlitRun C s e E pre t) :
    (∀ n, n < E.rowLen → Memory.read16 t.mem (pixelAddr E.dst n) = rowPixel C s E n) ∧
      ∃ F, t.engines[e]? = some F ∧ F.busy = false ∧ F.phase = rowPhase C E.phase E.rowLen := by
  obtain ⟨rest, hs⟩ := hrun.turns
  obtain ⟨u, hu, husched, hut⟩ := interleaving_last_turn hs hrun.ends
  have hrow := rowWritten_of_blitRun hC hrun hu
  rw [stepIn_own_turn hrow.engine husched hut,
    engineStep_blitAt_last (s := { u with sched := rest ++ pre ++ [.engine e] }) hrow.engine]
  exact ⟨fun n hn => hrow.output n hn (by omega), _, engine_at_set hrow.engine, rfl, rfl⟩

/-- Settles O42: its hypotheses are a `BlitRun`. -/
theorem blitComputesTheClosedFormInEveryInterleaving : Obligations.BlitComputesTheClosedFormInEveryInterleaving := by
  intro C hC s e E pre rest t hE hphase hwf hdisjoint hrows hs hreset hcount hduties ht
  exact blitRun_result hC ⟨hE, hphase, hwf, hdisjoint, hrows, ⟨rest, hs⟩, hreset, hcount, hduties, ht⟩

/-- The closed form depends on the taps of the table and the pixels of the row alone (R180). -/
theorem outputPixel_congr (hC : C.ScalarsOk) {b b' : Bank} {px px' : Nat → Pixel} {ph0 len m : Nat}
    (htaps : ∀ c p j, c < C.NCLASS → p < C.P → j < C.T → b.tap C c p j = b'.tap C c p j)
    (hpixels : ∀ n, n < len → px n = px' n) :
    outputPixel C b px ph0 len m = outputPixel C b' px' ph0 len m := by
  rw [outputPixel, outputPixel, columnSum, columnSum]
  congr 2
  refine List.map_congr_left fun n hn => ?_
  unfold contribution
  split
  · next h =>
    obtain ⟨-, htap⟩ := h
    rw [hpixels n (List.mem_range.1 hn), htaps _ _ _ (hC.CLASSIFY_lt _) (rowPhase_lt hC ph0 n) htap]
  · rfl

/-- Settles O43: both runs leave the closed form of their own row and table (`blitRun_result`), and these agree. -/
theorem blitOutputDependsOnlyOnRowTableAndPhase : Obligations.BlitOutputDependsOnlyOnRowTableAndPhase := by
  intro C hC s s' e e' E E' pre pre' t t' hrun hrun' hlen hphase htaps hpixels
  obtain ⟨hout, F, hF, hb, hph⟩ := blitRun_result hC hrun
  obtain ⟨hout', F', hF', hb', hph'⟩ := blitRun_result hC hrun'
  refine ⟨fun n hn => ?_, F, F', hF, hF', hb, hb', ?_⟩
  · rw [hout n hn, hout' n (hlen ▸ hn), rowPixel, rowPixel, ← hlen, ← hphase]
    exact outputPixel_congr hC htaps hpixels
  · rw [hph, hph', hlen, hphase]

end Sys2Proof.Proofs

/-!
The reference configuration's own statements (spec 45_reference_configuration R200, R204, R206, R213, R214): the range
table of VALID, exact energy, the exact flat field, and the fixed names as the instance at REF.
-/

namespace Sys2Proof.Proofs

open Sys2Proof Sys2Proof.Machine Sys2Proof.Laws

/-! ### The range table of VALID -/

/-- A word read as signed is near zero exactly when, read as unsigned, it is at one of the two ends of its range. -/
theorem toInt_symmetric_range_iff {w k : Nat} (b : BitVec w) (hk : 2 * k ≤ 2 ^ w) :
    -(k : Int) ≤ b.toInt ∧ b.toInt < k ↔ b.toNat < k ∨ 2 ^ w ≤ b.toNat + k := by
  have hlt : b.toNat < 2 ^ w := b.isLt
  rw [BitVec.toInt_eq_toNat_cond]
  split <;> omega

/-- The range of `P_BRI`, signed and bit by bit (R204, R206). -/
theorem bri_range_iff (b : Word) :
    -128 ≤ b.toInt ∧ b.toInt ≤ 127 ↔ b.toNat ≤ 0x7F ∨ 0xFFFFFF80 ≤ b.toNat := by
  have h := toInt_symmetric_range_iff (k := 128) b (by decide)
  omega

/-- Settles O21: `P_BRI` is the one word that VALID reads as signed (`bri_range_iff`). -/
theorem refValidIsTheRangeTable : Obligations.RefValidIsTheRangeTable := by
  intro q
  rw [← bri_range_iff, and_assoc]
  exact decide_eq_true_iff

/-! ### Energy and the flat field -/

/-- Settles O57, by R213's sum of a kernel (`ref_kernelSum`). -/
theorem refEnergyIsExact : Obligations.RefEnergyIsExact := by
  intro q c p _
  rw [ref_kernelSum]
  exact ⟨_, rfl, rfl, rfl, rfl⟩

/-- Tap `t` of a column comes from `2 - t` pixels on, and modulo 3 a step back is two steps on (R129, R214). -/
theorem ref_flatPhase (a t : Nat) : Config.ref.flatPhase a t = (a + 2 + 2 * t) % 3 := by
  simp only [Config.flatPhase, Config.ref]
  omega

/-- Settles O58: the phases by `ref_flatPhase`, their taps' sum by `ref_flatSum`. -/
theorem refFlatFieldIsExact : Obligations.RefFlatFieldIsExact := by
  intro q c a ha
  refine ⟨?_, _, rfl, ref_flatSum q c a, congrArg Config.ref.final (ref_flatSum q c a)⟩
  have htaps : List.range 5 = [0, 1, 2, 3, 4] := rfl
  simp only [htaps, List.map_cons, List.map_nil, ref_flatPhase, List.cons.injEq, and_true, true_and]
  omega

/-! ### The fixed names -/

/-- Settles O5: each arm of `exec` is that of `execIn` at REF (`exec_eq_execIn`), hence the step (`step_eq_stepIn`). -/
theorem stepIsTheReferenceInstance : Obligations.StepIsTheReferenceInstance :=
  ⟨exec_eq_execIn, step_eq_stepIn, rfl⟩

end Sys2Proof.Proofs

/-!
What an error at the acceptance of a command does (spec 60_exceptions R246): the code into ERR, its sticky bit, and
nothing else.
-/

namespace Sys2Proof.Proofs

open Sys2Proof Sys2Proof.Machine Sys2Proof.Laws

variable {C : Config} {s t : State} {e : Nat} {E F : Engine} {w : Word}

/-- A raised error by the engine's fields: each sticky bit is set exactly by its own code (R241). -/
theorem raised_eq (E : Engine) (k : ErrCode) :
    E.raised k =
      { E with
        err := k
        sCfg := E.sCfg || decide (k = .configuration)
        sUninit := E.sUninit || decide (k = .uninitializedTable)
        sLen := E.sLen || decide (k = .lengthMismatch)
        sIll := E.sIll || decide (k = .illegalCommand) } := by
  cases k <;> simp [Engine.raised, Engine.setSticky]

/-- An acceptance without an error clears ERR (R122, R152, R161), so that a code in ERR is the error just raised. -/
theorem eq_raised_of_accepted (h : Accepted C s E F) (herr : F.err ≠ .none) : F = E.raised F.err := by
  cases h with
  | error k _ => rfl
  | setup _ => exact absurd rfl herr
  | blit _ _ => exact absurd rfl herr
  | lookup _ _ _ _ => exact absurd rfl herr

/-- A word written to CMD of an idle engine makes an accepted engine of it, and changes the port besides (R94, R95). -/
theorem acceptCommand_of_idle (hE : s.engines[e]? = some E) (hb : E.busy = false)
    (ht : acceptCommand (execIn C) e w s = .next t) :
    ∃ F, Accepted C { s with port := e } E F ∧ t = { s with port := t.port, engines := s.engines.set e F } := by
  cases hw : decode w with
  | error r =>
    rw [acceptCommand_of_error hE hw] at ht
    cases ht
    exact ⟨_, .error .illegalCommand (by decide), rfl⟩
  | ok i =>
    rw [acceptCommand, hw] at ht
    rcases execIn_cases C i { s with port := e } with ⟨-, hbusy⟩ | ⟨E', F, hE', -, hF, hnext⟩
    · exact absurd (hbusy E hE) (Bool.eq_false_iff.1 hb)
    · obtain rfl : E' = E := Option.some.inj (hE'.symm.trans hE)
      cases hnext.symm.trans ht
      exact ⟨F, hF, rfl⟩

/-- Settles O32: the engine is an accepted one (`acceptCommand_of_idle`), with a code in ERR a raised one
(`eq_raised_of_accepted`), whose fields are those of `raised_eq`. -/
theorem anErrorChangesOnlyErrAndItsStickyBit : Obligations.AnErrorChangesOnlyErrAndItsStickyBit := by
  intro C s e E w t F hE hb ht hF herr
  obtain ⟨G, accepted, hframe⟩ := acceptCommand_of_idle hE hb ht
  obtain rfl : G = F := by
    rw [hframe, List.getElem?_set_self (List.getElem?_eq_some_iff.1 hE).1] at hF
    exact Option.some.inj hF
  exact ⟨hframe, (eq_raised_of_accepted accepted herr).trans (raised_eq E G.err)⟩

end Sys2Proof.Proofs
